-- ==== Sys2Proof/Word.lean ====
section
/-! DEFINITION. The block's words (00_scope.md R10) and the names of its four polynomial buffers (10_state.md R34). -/

namespace Sys2Proof

/-- A 32-bit word: a register, a buffer word, a command word, a bus datum (R10, R25). -/
abbrev Word := BitVec 32

/-- One byte of a buffer word (R63). -/
abbrev Byte := BitVec 8

/-- A byte offset in the 8 KiB window, 0x0000 to 0x1FFF (R60). -/
abbrev Offset := BitVec 13

/-- The polynomial buffers P0 to P3 (R34). Every value of a 2-bit index field names one (R93). -/
inductive Buf where
  | p0
  | p1
  | p2
  | p3
  deriving DecidableEq, Repr

end Sys2Proof
end

