-- ==== Sys2Proof/Syntax.lean ====
section
/-! DEFINITION. The nine commands (30_encoding.md R94), one constructor per row of spec/opcode_table.json, in its order. -/

namespace Sys2Proof

/-- A command. Scalar commands have implicit operands; vector commands name their destination buffer first (R93, R98). -/
inductive Instr where
  /-- MRED: SR <- montgomery_reduce of SA (R140). -/
  | mred
  /-- RED32: SR <- reduce32 of SA_LO (R141). -/
  | red32
  /-- CADDQ: SR <- caddq of SA_LO (R142). -/
  | caddq
  /-- FREEZE: SR <- freeze of SA_LO (R143). -/
  | freeze
  /-- MMUL: SR <- Montgomery product of SA_LO and SB (R144). -/
  | mmul
  /-- VMMUL P[rd], P[rs1], P[rs2]: pointwise Montgomery product (R172). -/
  | vmmul (rd rs1 rs2 : Buf)
  /-- VRED32 P[rd], P[rs1]: element-wise reduce32 (R173). -/
  | vred32 (rd rs1 : Buf)
  /-- VCADDQ P[rd], P[rs1]: element-wise caddq (R174). -/
  | vcaddq (rd rs1 : Buf)
  /-- VFREEZE P[rd], P[rs1]: element-wise freeze (R175). -/
  | vfreeze (rd rs1 : Buf)
  deriving DecidableEq, Repr

/-- The command's name in spec/opcode_table.json. -/
def Instr.mnemonic : Instr → String
  | .mred => "MRED"
  | .red32 => "RED32"
  | .caddq => "CADDQ"
  | .freeze => "FREEZE"
  | .mmul => "MMUL"
  | .vmmul _ _ _ => "VMMUL"
  | .vred32 _ _ => "VRED32"
  | .vcaddq _ _ => "VCADDQ"
  | .vfreeze _ _ => "VFREEZE"

/-- The class bit of R92: scalar commands write SR, vector commands write a buffer. -/
def Instr.isScalar : Instr → Bool
  | .mred => true
  | .red32 => true
  | .caddq => true
  | .freeze => true
  | .mmul => true
  | .vmmul _ _ _ => false
  | .vred32 _ _ => false
  | .vcaddq _ _ => false
  | .vfreeze _ _ => false

end Sys2Proof
end

