-- ==== Sys2Proof/WellFormed.lean ====
section
/-! DEFINITION. Which command words are legal, twice over and independently of the decoder: by the match/mask table of 30_encoding.md R94, and by the three grounds of R96 for an illegal word. A term of Instr has no ill-formed form, since its only operands are buffer names and every index is legal (R93; notes/assumptions/23.md). -/

namespace Sys2Proof

/-- One row of the opcode map of R94. -/
structure OpcodeRow where
  mnemonic : String
  pattern : Word
  mask : Word
  deriving DecidableEq, Repr

/-- `(w & mask) = match` of R94. -/
def OpcodeRow.encodes (r : OpcodeRow) (w : Word) : Bool := w &&& r.mask == r.pattern

/-- The opcode map of R94. -/
def opcodeTable : List OpcodeRow :=
  [ ⟨"MRED", 0x00000001#32, 0xFFFFFFFF#32⟩,
    ⟨"RED32", 0x00000002#32, 0xFFFFFFFF#32⟩,
    ⟨"CADDQ", 0x00000003#32, 0xFFFFFFFF#32⟩,
    ⟨"FREEZE", 0x00000004#32, 0xFFFFFFFF#32⟩,
    ⟨"MMUL", 0x00000005#32, 0xFFFFFFFF#32⟩,
    ⟨"VMMUL", 0x00000011#32, 0xFFFFC0FF#32⟩,
    ⟨"VRED32", 0x00000012#32, 0xFFFFF0FF#32⟩,
    ⟨"VCADDQ", 0x00000013#32, 0xFFFFF0FF#32⟩,
    ⟨"VFREEZE", 0x00000014#32, 0xFFFFF0FF#32⟩ ]

/-- Legality by the table of R94: some row encodes the word. -/
def inOpcodeTable (w : Word) : Bool := opcodeTable.any fun r => r.encodes w

/-- Check 1 of R96: no bit of 31:14 is set. -/
def reservedBitsClear (w : Word) : Bool := w >>> 14 == 0#32

/-- Check 2 of R96: OP is 0x01 to 0x05 or 0x11 to 0x14. -/
def opcodeAssigned (w : Word) : Bool :=
  let op := (w &&& 0xFF#32).toNat
  decide (1 ≤ op ∧ op ≤ 5) || decide (0x11 ≤ op ∧ op ≤ 0x14)

/-- The field bits an opcode does not use, which must be 0 (R93, D32): all of 13:8 for a scalar command, RS2 for a unary vector command, none for VMMUL. -/
def unusedFields (w : Word) : Word :=
  if w &&& 0x10#32 = 0#32 then 0x3F00#32
  else if w &&& 0xFF#32 = 0x11#32 then 0#32
  else 0x3000#32

/-- Check 3 of R96: every field the opcode does not use is 0. -/
def unusedFieldsClear (w : Word) : Bool := w &&& unusedFields w == 0#32

/-- A well-formed command word passes the three checks of R96. -/
def wellFormedWord (w : Word) : Bool :=
  reservedBitsClear w && opcodeAssigned w && unusedFieldsClear w

end Sys2Proof
end

