-- ==== Sys2Proof/Decode.lean ====
section
/-! DEFINITION. The decoder of 30_encoding.md R95, total on every 32-bit word and rejecting by name (R96), then the encoder of R91 and R98, and for each constructor a word written out from R94 and R100. -/

namespace Sys2Proof

/-- Why a word is illegal: which check of R95 it fails first. The names are the model's own; the block records none of them, each sets ERR.ILLEGAL alike (R202). DESIGN CHOICE (notes/assumptions/24.md). -/
inductive Illegal where
  /-- A bit of RSV, 31:14, is set. -/
  | reservedBits
  /-- OP is 0x00, 0x06 to 0x10, or 0x15 to 0xFF. -/
  | unassignedOpcode
  /-- A field the opcode does not use is not 0. -/
  | unusedField
  deriving DecidableEq, Repr

/-- Field OP, bits 7:0 (R91). -/
def fieldOp (w : Word) : BitVec 8 := w.extractLsb' 0 8

/-- Field RD, bits 9:8 (R91). -/
def fieldRd (w : Word) : BitVec 2 := w.extractLsb' 8 2

/-- Field RS1, bits 11:10 (R91). -/
def fieldRs1 (w : Word) : BitVec 2 := w.extractLsb' 10 2

/-- Field RS2, bits 13:12 (R91). -/
def fieldRs2 (w : Word) : BitVec 2 := w.extractLsb' 12 2

/-- Bits 13:8, all three index fields together (R95). -/
def fieldIndexes (w : Word) : BitVec 6 := w.extractLsb' 8 6

/-- Field RSV, bits 31:14 (R91). -/
def fieldRsv (w : Word) : BitVec 18 := w.extractLsb' 14 18

/-- Value k of an index field selects buffer Pk (R93). -/
def Buf.ofField (k : BitVec 2) : Buf :=
  if k = 0#2 then .p0 else if k = 1#2 then .p1 else if k = 2#2 then .p2 else .p3

/-- The index field's value for a buffer (R93). -/
def Buf.field : Buf → BitVec 2
  | .p0 => 0#2
  | .p1 => 1#2
  | .p2 => 2#2
  | .p3 => 3#2

/-- A scalar command: legal when bits 13:8 are 0 (R95). -/
def decodeScalar (i : Instr) (w : Word) : Except Illegal Instr :=
  if fieldIndexes w = 0#6 then .ok i else .error .unusedField

/-- A unary vector command: legal when RS2 is 0 (R95). -/
def decodeUnary (i : Buf → Buf → Instr) (w : Word) : Except Illegal Instr :=
  if fieldRs2 w = 0#2 then .ok (i (Buf.ofField (fieldRd w)) (Buf.ofField (fieldRs1 w)))
  else .error .unusedField

/-- `Decode(w)` of R95. -/
def decode (w : Word) : Except Illegal Instr :=
  if fieldRsv w ≠ 0#18 then .error .reservedBits
  else if fieldOp w = 0x01#8 then decodeScalar .mred w
  else if fieldOp w = 0x02#8 then decodeScalar .red32 w
  else if fieldOp w = 0x03#8 then decodeScalar .caddq w
  else if fieldOp w = 0x04#8 then decodeScalar .freeze w
  else if fieldOp w = 0x05#8 then decodeScalar .mmul w
  else if fieldOp w = 0x11#8 then
    .ok (.vmmul (Buf.ofField (fieldRd w)) (Buf.ofField (fieldRs1 w)) (Buf.ofField (fieldRs2 w)))
  else if fieldOp w = 0x12#8 then decodeUnary .vred32 w
  else if fieldOp w = 0x13#8 then decodeUnary .vcaddq w
  else if fieldOp w = 0x14#8 then decodeUnary .vfreeze w
  else .error .unassignedOpcode

/-- The instruction the decoder reads from a word numbered as spec/opcode_table.json numbers it: a command is exactly one word (R90), and the bits from nbits up are 0. -/
def decodeTableWord (nbits w : Nat) : Option Instr :=
  match decode (BitVec.ofNat 32 (w % 2 ^ nbits)) with
  | .ok i => some i
  | .error _ => none

/-- OP of each command (R94). -/
def Instr.opcode : Instr → BitVec 8
  | .mred => 0x01#8
  | .red32 => 0x02#8
  | .caddq => 0x03#8
  | .freeze => 0x04#8
  | .mmul => 0x05#8
  | .vmmul _ _ _ => 0x11#8
  | .vred32 _ _ => 0x12#8
  | .vcaddq _ _ => 0x13#8
  | .vfreeze _ _ => 0x14#8

/-- A word with RSV = 0 from its other fields, laid out as R91 draws it. -/
def commandWord (rs2 rs1 rd : BitVec 2) (op : BitVec 8) : Word :=
  0#18 ++ rs2 ++ rs1 ++ rd ++ op

/-- The command's word (R98): the fields it uses as given, every other field 0. -/
def encode (i : Instr) : Word :=
  match i with
  | .mred => commandWord 0#2 0#2 0#2 i.opcode
  | .red32 => commandWord 0#2 0#2 0#2 i.opcode
  | .caddq => commandWord 0#2 0#2 0#2 i.opcode
  | .freeze => commandWord 0#2 0#2 0#2 i.opcode
  | .mmul => commandWord 0#2 0#2 0#2 i.opcode
  | .vmmul rd rs1 rs2 => commandWord rs2.field rs1.field rd.field i.opcode
  | .vred32 rd rs1 => commandWord 0#2 rs1.field rd.field i.opcode
  | .vcaddq rd rs1 => commandWord 0#2 rs1.field rd.field i.opcode
  | .vfreeze rd rs1 => commandWord 0#2 rs1.field rd.field i.opcode

/-- R100: `MRED` is 0x00000001. -/
theorem decode_word_mred : decode 0x00000001#32 = .ok .mred := by decide

/-- R98: `RED32` is 0x00000002. -/
theorem decode_word_red32 : decode 0x00000002#32 = .ok .red32 := by decide

/-- R98: `CADDQ` is 0x00000003. -/
theorem decode_word_caddq : decode 0x00000003#32 = .ok .caddq := by decide

/-- R100: `FREEZE` is 0x00000004. -/
theorem decode_word_freeze : decode 0x00000004#32 = .ok .freeze := by decide

/-- R98: `MMUL` is 0x00000005. -/
theorem decode_word_mmul : decode 0x00000005#32 = .ok .mmul := by decide

/-- R100: `VMMUL P2, P0, P1` is 0x00001211. -/
theorem decode_word_vmmul : decode 0x00001211#32 = .ok (.vmmul .p2 .p0 .p1) := by decide

/-- R173: `VRED32 P1, P0` is 0x00000112 (90_conflicts.md C10). -/
theorem decode_word_vred32 : decode 0x00000112#32 = .ok (.vred32 .p1 .p0) := by decide

/-- R100: `VCADDQ P1, P2` is 0x00000913. -/
theorem decode_word_vcaddq : decode 0x00000913#32 = .ok (.vcaddq .p1 .p2) := by decide

/-- R100: `VFREEZE P3, P2` is 0x00000B14. -/
theorem decode_word_vfreeze : decode 0x00000B14#32 = .ok (.vfreeze .p3 .p2) := by decide

end Sys2Proof
end

