-- ==== Sys2Proof/Config.lean ====
section
/-! DEFINITION. What is fixed for the block: the constants of 00_scope.md R6 to R8 and the open parameters of R6, which the model takes as uninterpreted constants (notes/assumptions/10.md). -/

namespace Sys2Proof

/-- The modulus q = 2^23 − 2^13 + 1 (R6, R30). -/
abbrev Config.q : Int := 8380417

/-- QINV = q⁻¹ mod 2^32 (R6, R31, R120). -/
abbrev Config.qinv : Int := 58728449

/-- MONT, the centred representative of 2^32 mod q (R6, R32). -/
abbrev Config.mont : Int := -4186625

/-- MONT2 = 2^64 mod q, the multiplier of the TOMONT pseudo-instruction (R6, R99, R133). -/
abbrev Config.mont2 : Int := 2365951

/-- n, the number of coefficients of a polynomial (R6). -/
abbrev Config.n : Nat := 256

/-- What CONST_Q reads (R30). -/
abbrev Config.constQ : Word := 0x007FE001#32

/-- What CONST_QINV reads (R31). -/
abbrev Config.constQinv : Word := 0x03802001#32

/-- What CONST_MONT reads (R32). -/
abbrev Config.constMont : Word := 0xFFC01DFF#32

/-- OPEN (S5): which 8 KiB slot of the platform's address space holds the window. -/
opaque Config.baseSlot : Nat

/-- BASE, a multiple of 0x2000 (R6, D2). -/
def Config.base : Nat := 0x2000 * Config.baseSlot

/-- The platform address of a window offset, `BASE + off` (R60). -/
def Config.platformAddress (off : Offset) : Nat := Config.base + off.toNat

/-- OPEN (S3): one less than the latency of the command with this OP value. -/
opaque Config.latencyLessOne : BitVec 8 → Nat

/-- `LAT_<op>`, a positive number of cycles fixed per opcode (R242). No rule of the model depends on it. -/
def Config.latency (op : BitVec 8) : Nat := Config.latencyLessOne op + 1

/-- OPEN (S6): `BUS_PROTOCOL`, a number that stands for the protocol; it is invisible to the model (R61, D34). -/
opaque Config.busProtocol : Nat

/-- OPEN (S7): `RESET_KIND`, a number that stands for polarity and synchrony; it is invisible to the model (R230, D35). -/
opaque Config.resetKind : Nat

end Sys2Proof
end

