-- ==== Sys2Proof/Machine/State.lean ====
section
/-! DEFINITION. The state of the block as plain data (10_state.md R21 to R40), the host's inputs and the block's answers (20_memory.md R61, R71, R77), the reasons a step stops, and the state after reset (R40). -/

namespace Sys2Proof.Machine

/-- The buffers' bytes, keyed by window offset (0x400 to 0x13FF, R34, R63), in one canonical form: offsets strictly rising, whole words only. An offset that is not listed holds no value (R40, S1): reading it faults. DESIGN CHOICE: bytes rather than words (notes/assumptions/4.md, 5.md). -/
abbrev Memory := List Host.Cell

/-- PHASE and CUR (R36). CUR, the accepted command word, exists only while PHASE = RUN, where alone it is meaningful. DESIGN CHOICE (notes/assumptions/7.md). -/
inductive Engine where
  /-- PHASE = IDLE. -/
  | idle
  /-- PHASE = RUN with CUR = cur. -/
  | run (cur : Word)
  deriving DecidableEq, Repr

/-- Whether a host access reads or writes; a write carries its data (R61). -/
inductive AccessKind where
  | read
  | write (wdata : Word)
  deriving DecidableEq, Repr

/-- A host access of the window, whatever its size and alignment (R61). -/
structure Access where
  kind : AccessKind
  off : Offset
  size : Nat
  deriving DecidableEq, Repr

/-- What the block answers to an access (R61). -/
inductive Reply where
  /-- Response OKAY to a read, with rdata. -/
  | data (rdata : Word)
  /-- Response OKAY to a write. -/
  | written
  /-- Response ERROR, rdata 0x00000000 (R62). -/
  | error
  deriving DecidableEq, Repr

/-- One turn of an interleaving (R71, R77). -/
inductive Slot where
  /-- The host performs an access. -/
  | access (a : Access)
  /-- The engine may move: a completion step if PHASE = RUN, nothing if PHASE = IDLE. -/
  | engine
  /-- The input rst is asserted and released (R230, R232). -/
  | reset
  deriving DecidableEq, Repr

/-- Why the model stops. -/
inductive Fault where
  /-- A host read or a vector command reads a buffer word that nothing has written since reset: "The model treats such a read as a fault of the run, not as a value" (R177, S1). Raised by busAccess and by the four vector commands. Safe: the hardware goes on with some value. -/
  | unwrittenRead
  /-- PHASE = RUN with a command word that does not decode. Raised by engineTurn alone; no run reaches it, since only legal words are accepted (R201, R203). Safe. -/
  | illegalInFlight
  deriving DecidableEq, Repr

/-- Why an instruction has no meaning in the model. -/
inductive Refusal where
  /-- Raised by exec alone for an instruction without a meaning; no arm of exec raises it now. Safe. -/
  | notModelled (mnemonic : String)
  deriving DecidableEq, Repr

/-- The state of the block (R21), and the model's own two fields, schedule and replies. -/
structure State where
  /-- CTRL: bit 0 DONE_IE, bit 1 ERR_IE, the rest reserved (R26). -/
  ctrl : Word
  /-- STATUS.DONE (R27). STATUS.BUSY has its home in engine (R36; notes/assumptions/8.md). -/
  done : Bool
  /-- ERR: bit 0 ILLEGAL, bit 1 BUSYACC, bit 2 PRE, the rest reserved (R28). -/
  err : Word
  /-- SA_LO, bits 31:0 of SA (R22, R23). -/
  saLo : Word
  /-- SA_HI, bits 63:32 of SA (R22, R23). -/
  saHi : Word
  /-- SB (R22). -/
  sb : Word
  /-- SR (R22, R24). -/
  sr : Word
  /-- P0 to P3 (R34). -/
  mem : Memory
  /-- PHASE and CUR (R36). -/
  engine : Engine
  /-- The model's own, DESIGN CHOICE: the turns still to come, which the step consumes from the front (R71; notes/assumptions/1.md). -/
  schedule : List Slot
  /-- The model's own, DESIGN CHOICE: the answers to the host's accesses so far, newest first (R61, R245; notes/assumptions/3.md). -/
  replies : List Reply
  deriving DecidableEq, Repr

/-- The state right after reset (R40): every register 0, IDLE, no buffer word written; nothing scheduled and nothing answered yet. -/
def State.reset : State where
  ctrl := 0x00000000#32
  done := false
  err := 0x00000000#32
  saLo := 0x00000000#32
  saHi := 0x00000000#32
  sb := 0x00000000#32
  sr := 0x00000000#32
  mem := []
  engine := .idle
  schedule := []
  replies := []

end Sys2Proof.Machine
end

