-- ==== Sys2Proof/Machine/Memory.lean ====
section
/-! DEFINITION. The buffers' bytes (20_memory.md R63): one byte, then words in little-endian order, then runs of words. A word is written whole (R62) and has a value exactly when its four bytes are listed (10_state.md R40). -/

namespace Sys2Proof.Machine

/-- The byte at window offset `a`; none where nothing has written since reset (R40). -/
def Memory.readByte : Memory → Nat → Option Byte
  | [], _ => none
  | c :: m, a => if c.1 = a then some c.2 else Memory.readByte m a

/-- Writes one byte at window offset `a`, keeping the offsets strictly rising. -/
def Memory.writeByte : Memory → Nat → Byte → Memory
  | [], a, b => [(a, b)]
  | c :: m, a, b =>
    if a < c.1 then (a, b) :: c :: m
    else if c.1 = a then (a, b) :: m
    else c :: Memory.writeByte m a b

/-- Byte j of a word: bits 8j+7 to 8j (R63). -/
def wordByte (w : Word) (j : Nat) : Byte := w.extractLsb' (8 * j) 8

/-- The word whose bytes are b0 (bits 7:0) to b3 (bits 31:24) (R63). -/
def wordOfBytes (b0 b1 b2 b3 : Byte) : Word := b3 ++ b2 ++ b1 ++ b0

/-- The word at window offset `a`; none where it holds no value (R40). -/
def Memory.readWord (m : Memory) (a : Nat) : Option Word :=
  match m.readByte a, m.readByte (a + 1), m.readByte (a + 2), m.readByte (a + 3) with
  | some b0, some b1, some b2, some b3 => some (wordOfBytes b0 b1 b2 b3)
  | _, _, _, _ => none

/-- Writes the word at window offset `a`, byte off+j carrying bits 8j+7 to 8j (R63). -/
def Memory.writeWord (m : Memory) (a : Nat) (w : Word) : Memory :=
  (((m.writeByte a (wordByte w 0)).writeByte (a + 1) (wordByte w 1)).writeByte (a + 2)
    (wordByte w 2)).writeByte (a + 3) (wordByte w 3)

/-- The k words from window offset `a` on; none as soon as one holds no value. -/
def Memory.readWords (m : Memory) : Nat → Nat → Option (List Word)
  | _, 0 => some []
  | a, k + 1 =>
    match m.readWord a, Memory.readWords m (a + 4) k with
    | some w, some ws => some (w :: ws)
    | _, _ => none

/-- Writes words from window offset `a` on, in rising order (R171). -/
def Memory.writeWords : Memory → Nat → List Word → Memory
  | m, _, [] => m
  | m, a, w :: ws => Memory.writeWords (m.writeWord a w) (a + 4) ws

/-- The offsets strictly rise. -/
abbrev Memory.sorted (m : Memory) : Prop := m.Pairwise fun c d => c.1 < d.1

/-- Every listed offset lies in the buffers, 0x400 to 0x13FF (R25, R34). -/
abbrev Memory.inBuffers (m : Memory) : Prop := ∀ c ∈ m, 0x400 ≤ c.1 ∧ c.1 < 0x1400

/-- Every word is listed whole or not at all: an access never writes part of one (R62, R63). -/
abbrev Memory.wholeWords (m : Memory) : Prop :=
  ∀ c ∈ m, ∀ j < 4, (m.readByte (c.1 / 4 * 4 + j)).isSome = true

/-- The canonical form. Nothing reads as a value by default, so no entry is redundant. -/
abbrev Memory.wf (m : Memory) : Prop := m.sorted ∧ m.inBuffers ∧ m.wholeWords

end Sys2Proof.Machine
end

