-- ==== Sys2Proof/Machine/Flags.lean ====
section
/-! DEFINITION. The block's only flags (10_state.md R38): STATUS.BUSY and DONE (R27), the three ERR bits (R28), the interrupt enables (R26) and the output irq (R37). No command computes a condition code. -/

namespace Sys2Proof.Machine

/-- PHASE = RUN (R36, R200). -/
def State.busy (s : State) : Bool :=
  match s.engine with
  | .idle => false
  | .run _ => true

/-- The word STATUS reads: bit 0 BUSY, bit 1 DONE, the rest 0 (R27). -/
def State.status (s : State) : Word :=
  (if s.busy then 1#32 else 0#32) ||| (if s.done then 2#32 else 0#32)

/-- ERR.ILLEGAL, bit 0 (R28). -/
def State.illegal (s : State) : Bool := s.err.getLsbD 0

/-- ERR.BUSYACC, bit 1 (R28). -/
def State.busyacc (s : State) : Bool := s.err.getLsbD 1

/-- ERR.PRE, bit 2 (R28). -/
def State.pre (s : State) : Bool := s.err.getLsbD 2

/-- CTRL.DONE_IE, bit 0 (R26). -/
def State.doneIe (s : State) : Bool := s.ctrl.getLsbD 0

/-- CTRL.ERR_IE, bit 1 (R26). -/
def State.errIe (s : State) : Bool := s.ctrl.getLsbD 1

/-- The level of the output irq (R37). -/
def State.irq (s : State) : Bool :=
  (s.done && s.doneIe) || ((s.illegal || s.busyacc || s.pre) && s.errIe)

/-- The bits of an ERR bit mask set in ERR (R205). -/
def State.setErr (s : State) (bits : Word) : State := { s with err := s.err ||| bits }

/-- `flag PRE`, when an input broke its precondition: ERR.PRE <- 1 and nothing else (R204). -/
def State.flagPre (s : State) (broken : Bool) : State :=
  { s with err := if broken then s.err ||| 4#32 else s.err }

/-- A write to CTRL stores bits 1:0 (R26, R64). -/
def State.writeCtrl (s : State) (wdata : Word) : State := { s with ctrl := wdata &&& 3#32 }

/-- A write to STATUS clears DONE where bit 1 is written 1; BUSY ignores it (R27, R64). -/
def State.writeStatus (s : State) (wdata : Word) : State :=
  { s with done := s.done && !wdata.getLsbD 1 }

/-- A write to ERR clears the bits of 2:0 written 1 (R28, R64). -/
def State.writeErr (s : State) (wdata : Word) : State :=
  { s with err := s.err &&& ~~~(wdata &&& 7#32) }

end Sys2Proof.Machine
end

