-- ==== Sys2Proof/Machine/Ops.lean ====
section
/-! DEFINITION. The named operations on registers and buffers, and the lifecycle of a command: acceptance (60_exceptions.md R201), the three error outcomes of R205 (the block has no trap entry and no trap return, R209, R210) and the end of the completion step (R203). -/

namespace Sys2Proof.Machine

/-- The index k of Pk (R34). -/
def bufIndex : Buf → Nat
  | .p0 => 0
  | .p1 => 1
  | .p2 => 2
  | .p3 => 3

/-- The buffer with index k, taken mod 4 (R64). -/
def bufOfIndex (k : Nat) : Buf :=
  if k % 4 = 0 then .p0 else if k % 4 = 1 then .p1 else if k % 4 = 2 then .p2 else .p3

/-- The window offset of word i of a buffer, `0x400 + 0x400·k + 4·i` (R34). -/
def bufOffset (b : Buf) (i : Nat) : Nat := 0x400 + 0x400 * bufIndex b + 4 * i

/-- `P[k][i]`; none for a word that nothing has written since reset (R13, R40). -/
def State.readBufWord (s : State) (b : Buf) (i : Nat) : Option Word :=
  s.mem.readWord (bufOffset b i)

/-- `P[k][i] <- w` (R13). -/
def State.writeBufWord (s : State) (b : Buf) (i : Nat) (w : Word) : State :=
  { s with mem := s.mem.writeWord (bufOffset b i) w }

/-- All 256 words of a buffer; none if one of them holds no value (R170, R177). -/
def State.readBuffer (s : State) (b : Buf) : Option (List Word) :=
  s.mem.readWords (bufOffset b 0) Config.n

/-- Writes the words of a buffer from index 0 on (R170). -/
def State.writeBuffer (s : State) (b : Buf) (ws : List Word) : State :=
  { s with mem := s.mem.writeWords (bufOffset b 0) ws }

/-- `SR <- w` (R24). -/
def State.writeSr (s : State) (w : Word) : State := { s with sr := w }

/-- The block's answer to an access (R61). -/
def State.answer (s : State) (r : Reply) : State := { s with replies := r :: s.replies }

/-- `raise Illegal()`: ERR.ILLEGAL <- 1 and nothing else (R202). -/
def State.raiseIllegal (s : State) : State := s.setErr 1#32

/-- The answer to an access that is not performed because the engine is busy: OKAY, rdata 0 for a read (R66). -/
def busyReply : AccessKind → Reply
  | .read => .data 0#32
  | .write _ => .written

/-- `raise BusyAccess()`: the access is dropped, ERR.BUSYACC <- 1, response OKAY (R66). -/
def State.raiseBusyAccess (s : State) (kind : AccessKind) : State :=
  (s.setErr 2#32).answer (busyReply kind)

/-- `raise BusError()`: response ERROR, rdata 0, no change to any state of the block (R62). -/
def State.raiseBusError (s : State) : State := s.answer .error

/-- Acceptance: CUR <- w, PHASE <- RUN, BUSY <- 1, DONE <- 0 (R201). -/
def State.accept (s : State) (w : Word) : State := { s with engine := .run w, done := false }

/-- `OfferCommand(w)` (R201, R202). -/
def State.offerCommand (s : State) (w : Word) : State :=
  match decode w with
  | .ok _ => s.accept w
  | .error _ => s.raiseIllegal

/-- The end of every completion step: PHASE <- IDLE, BUSY <- 0, DONE <- 1 (R203). -/
def State.finish (s : State) : State := { s with engine := .idle, done := true }

/-- Reset: every piece of the block's state at its value of R40, a command in flight aborted (R230). The schedule and the replies are the host's and stay (notes/assumptions/21.md). -/
def State.resetBlock (s : State) : State :=
  { State.reset with schedule := s.schedule, replies := s.replies }

end Sys2Proof.Machine
end

