-- ==== Sys2Proof/Machine/Bus.lean ====
section
/-! DEFINITION. The host's accesses of the window: what an offset names (10_state.md R25), which offsets are protected (R39), and the access function with its checks in their order (20_memory.md R62, R64, R66; 60_exceptions.md R208). -/

namespace Sys2Proof.Machine

/-- What a word offset of the window names (R25). -/
inductive Target where
  | ctrl
  | status
  | err
  | cmd
  | saLo
  | saHi
  | sb
  | sr
  | constQ
  | constQinv
  | constMont
  | bufWord (b : Buf) (i : Nat)
  | reserved
  deriving DecidableEq, Repr

/-- The registers' part of the map of R25: eleven offsets name a register, every other one is reserved (R33). -/
def registerOf (off : Nat) : Target :=
  if off = 0x000 then .ctrl
  else if off = 0x004 then .status
  else if off = 0x008 then .err
  else if off = 0x00C then .cmd
  else if off = 0x010 then .saLo
  else if off = 0x014 then .saHi
  else if off = 0x018 then .sb
  else if off = 0x01C then .sr
  else if off = 0x020 then .constQ
  else if off = 0x024 then .constQinv
  else if off = 0x028 then .constMont
  else .reserved

/-- The window's map of R25: from 0x400 to 0x13FF the buffers, with `k = (off − 0x400) >> 10` and `i = ((off − 0x400) >> 2) mod 256` (R64), elsewhere the registers. -/
def targetOf (off : Nat) : Target :=
  if 0x400 ≤ off ∧ off < 0x1400 then
    .bufWord (bufOfIndex ((off - 0x400) / 0x400)) ((off - 0x400) / 4 % 256)
  else registerOf off

/-- The protected set: SA_LO, SA_HI, SB, SR, CMD and every buffer word (R39). -/
def isProtected : Target → Bool
  | .ctrl => false
  | .status => false
  | .err => false
  | .cmd => true
  | .saLo => true
  | .saHi => true
  | .sb => true
  | .sr => true
  | .constQ => false
  | .constQinv => false
  | .constMont => false
  | .bufWord _ _ => true
  | .reserved => false

/-- The response of an access (R61). -/
inductive Response where
  | okay
  | error
  deriving DecidableEq, Repr

/-- The response a reply carries: ERROR for a bus error alone (R62, R64, R66). -/
def Reply.response : Reply → Response
  | .data _ => .okay
  | .written => .okay
  | .error => .error

/-- The read data a reply carries: 0x00000000 for a bus error (R62), none for a performed write. -/
def Reply.rdata : Reply → Option Word
  | .data v => some v
  | .written => none
  | .error => some 0x00000000#32

/-- The window offset a platform address names; none outside the window, where the block is not selected (R60, R69). -/
def offsetOfPlatform (addr : Nat) : Option Offset :=
  if Config.base ≤ addr ∧ addr < Config.base + 0x2000 then
    some (BitVec.ofNat 13 (addr - Config.base))
  else none

/-- Only a 4-byte access at a multiple of 4 is performed (R62). -/
def isPerformed (a : Access) : Bool := decide (a.size = 4) && decide (a.off.toNat % 4 = 0)

/-- The word a performed read returns; none for a buffer word without a value (R64, R177). -/
def State.readTarget (s : State) : Target → Option Word
  | .ctrl => some s.ctrl
  | .status => some s.status
  | .err => some s.err
  | .cmd => some 0x00000000#32
  | .saLo => some s.saLo
  | .saHi => some s.saHi
  | .sb => some s.sb
  | .sr => some s.sr
  | .constQ => some Config.constQ
  | .constQinv => some Config.constQinv
  | .constMont => some Config.constMont
  | .bufWord b i => s.readBufWord b i
  | .reserved => some 0x00000000#32

/-- The effect of a performed write (R64). -/
def State.writeTarget (s : State) (t : Target) (wdata : Word) : State :=
  match t with
  | .ctrl => s.writeCtrl wdata
  | .status => s.writeStatus wdata
  | .err => s.writeErr wdata
  | .cmd => s.offerCommand wdata
  | .saLo => { s with saLo := wdata }
  | .saHi => { s with saHi := wdata }
  | .sb => { s with sb := wdata }
  | .sr => s
  | .constQ => s
  | .constQinv => s
  | .constMont => s
  | .bufWord b i => s.writeBufWord b i wdata
  | .reserved => s

/-- `HostAccess` of a performed access that busy protection lets through (R64). -/
def hostAccess (kind : AccessKind) (t : Target) (s : State) : Host.Outcome State Fault Refusal :=
  match kind with
  | .read =>
    match s.readTarget t with
    | some rdata => .next (s.answer (.data rdata))
    | none => .fault .unwrittenRead
  | .write wdata => .next ((s.writeTarget t wdata).answer .written)

/-- A host access with its checks in the order of R208: size and alignment, then busy protection, then the access itself. -/
def busAccess (a : Access) (s : State) : Host.Outcome State Fault Refusal :=
  if isPerformed a then
    if s.busy && isProtected (targetOf a.off.toNat) then .next (s.raiseBusyAccess a.kind)
    else hostAccess a.kind (targetOf a.off.toNat) s
  else .next s.raiseBusError

end Sys2Proof.Machine
end

