-- ==== Sys2Proof/Machine/Kernel.lean ====
section
/-! DEFINITION. The kernel functions of 40_reduction_kernel.md R121 to R133 as exact functions on integers, with the readings s32, s64 and u32 of 00_scope.md R11. `x / 2^k` is the floor of R12's arithmetic shift. -/

namespace Sys2Proof.Machine

/-- `s32(x)`: the integer in [−2^31, 2^31) congruent to x mod 2^32 (R11). -/
def s32 (x : Int) : Int := (x + 2147483648) % 4294967296 - 2147483648

/-- `s64(x)`: the integer in [−2^63, 2^63) congruent to x mod 2^64 (R11). -/
def s64 (x : Int) : Int := (x + 9223372036854775808) % 18446744073709551616 - 9223372036854775808

/-- `u32(x)`: the word that stores the signed value x (R11). -/
def u32 (x : Int) : Word := BitVec.ofInt 32 x

/-- The factor t of MRED_F: the low 32 bits of a·QINV, read as signed (R121). -/
def mredFactor (a : Int) : Int := s32 (a * Config.qinv)

/-- The 64-bit difference d of MRED_F (R121). -/
def mredDifference (a : Int) : Int := s64 (a - mredFactor a * Config.q)

/-- `MRED_F(a)`, montgomery_reduce: bits 63:32 of d, read as signed (R121). -/
def mredF (a : Int) : Int := s32 (mredDifference a / 4294967296)

/-- `PreMRED(a)`: −q·2^31 ≤ a ≤ q·2^31 (R125). -/
def preMred (a : Int) : Bool :=
  decide (-(Config.q * 2147483648) ≤ a) && decide (a ≤ Config.q * 2147483648)

/-- `RED32_F(a)`, reduce32, with an exact sum (R126). -/
def red32F (a : Int) : Int := a - (a + 4194304) / 8388608 * Config.q

/-- `CADDQ_F(a)`, caddq: the mask a >> 31 selects q or 0 (R130). -/
def caddqF (a : Int) : Int := a + (u32 (a / 2147483648) &&& Config.constQ).toInt

/-- `PreCADDQ(a)`: −q ≤ a < q (R131). -/
def preCaddq (a : Int) : Bool := decide (-Config.q ≤ a) && decide (a < Config.q)

/-- `FREEZE_F(a)`, freeze: reduce32 then caddq (R132). -/
def freezeF (a : Int) : Int := caddqF (red32F a)

/-- The exact product that MMUL and VMMUL reduce (R133). -/
def product (x y : Int) : Int := x * y

/-- `MMUL_F(x, y)`, the Montgomery product (R133). -/
def mmulF (x y : Int) : Int := mredF (product x y)

/-- A function without a precondition (R129, R132). -/
def noPrecondition (_ : Int) : Bool := true

end Sys2Proof.Machine
end

