-- ==== Sys2Proof/Machine/Operands.lean ====
section
/-! DEFINITION. The operands as commands read them: SA as a signed 64-bit value, SA_LO and SB as signed 32-bit values (10_state.md R22, R23; D27), a buffer as signed coefficients (R35). -/

namespace Sys2Proof.Machine

/-- `s64({SA_HI, SA_LO})` (R23, R140). -/
def State.sa64 (s : State) : Int := (s.saHi ++ s.saLo : BitVec 64).toInt

/-- `s32(SA_LO)` (R22, R141). -/
def State.sa32 (s : State) : Int := s.saLo.toInt

/-- `s32(SB)` (R22, R144). -/
def State.sb32 (s : State) : Int := s.sb.toInt

/-- The 256 coefficients of a buffer, `s32(P[k][i])`; none if one of its words holds no value (R35, R177). -/
def State.coefficients (s : State) (b : Buf) : Option (List Int) :=
  match s.readBuffer b with
  | some ws => some (ws.map BitVec.toInt)
  | none => none

/-- The 256 products `x[i]·y[i]` of two buffers; none if a word of either holds no value (R172, R177). -/
def State.products (s : State) (b1 b2 : Buf) : Option (List Int) :=
  match s.coefficients b1, s.coefficients b2 with
  | some xs, some ys => some (List.zipWith product xs ys)
  | _, _ => none

end Sys2Proof.Machine
end

