-- ==== Sys2Proof/Machine/Scalar.lean ====
section
/-! DEFINITION. The completion steps of the five scalar commands (40_reduction_kernel.md R140 to R144), over one shared template: operands are read, SR is written, ERR.PRE may be set, nothing else changes but what R203 does. -/

namespace Sys2Proof.Machine

/-- A scalar command with result F(a), whose precondition is `ok` (section 2 of 40_reduction_kernel.md, R203, R204). -/
def State.completeScalar (s : State) (F : Int → Int) (ok : Int → Bool) (a : Int) : State :=
  ((s.writeSr (u32 (F a))).flagPre (!ok a)).finish

/-- MRED (R140). -/
def execMred (s : State) : Host.Outcome State Fault Refusal :=
  .next (s.completeScalar mredF preMred s.sa64)

/-- RED32 (R141). -/
def execRed32 (s : State) : Host.Outcome State Fault Refusal :=
  .next (s.completeScalar red32F noPrecondition s.sa32)

/-- CADDQ (R142). -/
def execCaddq (s : State) : Host.Outcome State Fault Refusal :=
  .next (s.completeScalar caddqF preCaddq s.sa32)

/-- FREEZE (R143). -/
def execFreeze (s : State) : Host.Outcome State Fault Refusal :=
  .next (s.completeScalar freezeF noPrecondition s.sa32)

/-- MMUL (R144). -/
def execMmul (s : State) : Host.Outcome State Fault Refusal :=
  .next (s.completeScalar mredF preMred (product s.sa32 s.sb32))

end Sys2Proof.Machine
end

