-- ==== Sys2Proof/Machine/Vector.lean ====
section
/-! DEFINITION. The completion steps of the four vector commands (41_polynomial_layer.md R172 to R175), over the shared shape of R170: all 256 elements of the sources are read, then all 256 words of P[rd] are written, and ERR.PRE is set once if some element breaks the precondition. -/

namespace Sys2Proof.Machine

/-- A vector command with element function F and precondition `ok`, its element arguments read (R170, R203, R204). -/
def State.completeVector (s : State) (F : Int → Int) (ok : Int → Bool) (rd : Buf)
    (args : List Int) : State :=
  ((s.writeBuffer rd (args.map fun a => u32 (F a))).flagPre (args.any fun a => !ok a)).finish

/-- R170 with R177: a source word without a value is a fault of the run. -/
def completeOrFault (F : Int → Int) (ok : Int → Bool) (rd : Buf) (args : Option (List Int))
    (s : State) : Host.Outcome State Fault Refusal :=
  match args with
  | some xs => .next (s.completeVector F ok rd xs)
  | none => .fault .unwrittenRead

/-- VMMUL (R172). -/
def execVmmul (rd rs1 rs2 : Buf) (s : State) : Host.Outcome State Fault Refusal :=
  completeOrFault mredF preMred rd (s.products rs1 rs2) s

/-- VRED32 (R173). -/
def execVred32 (rd rs1 : Buf) (s : State) : Host.Outcome State Fault Refusal :=
  completeOrFault red32F noPrecondition rd (s.coefficients rs1) s

/-- VCADDQ (R174). -/
def execVcaddq (rd rs1 : Buf) (s : State) : Host.Outcome State Fault Refusal :=
  completeOrFault caddqF preCaddq rd (s.coefficients rs1) s

/-- VFREEZE (R175). -/
def execVfreeze (rd rs1 : Buf) (s : State) : Host.Outcome State Fault Refusal :=
  completeOrFault freezeF noPrecondition rd (s.coefficients rs1) s

end Sys2Proof.Machine
end

