-- ==== Sys2Proof/Machine/Dispatch.lean ====
section
/-! DEFINITION. The completion step of each command (60_exceptions.md R203), one arm per constructor of Instr. -/

namespace Sys2Proof.Machine

def exec (i : Instr) (s : State) : Host.Outcome State Fault Refusal :=
  match i with
  | .mred => Sys2Proof.Machine.execMred s
  | .red32 => Sys2Proof.Machine.execRed32 s
  | .caddq => Sys2Proof.Machine.execCaddq s
  | .freeze => Sys2Proof.Machine.execFreeze s
  | .mmul => Sys2Proof.Machine.execMmul s
  | .vmmul rd rs1 rs2 => Sys2Proof.Machine.execVmmul rd rs1 rs2 s
  | .vred32 rd rs1 => Sys2Proof.Machine.execVred32 rd rs1 s
  | .vcaddq rd rs1 => Sys2Proof.Machine.execVcaddq rd rs1 s
  | .vfreeze rd rs1 => Sys2Proof.Machine.execVfreeze rd rs1 s

end Sys2Proof.Machine
end

