-- ==== Sys2Proof/Machine/Engine.lean ====
section
/-! DEFINITION. The turns of an interleaving (20_memory.md R71): the engine's completion step (60_exceptions.md R203), a host access, reset. -/

namespace Sys2Proof.Machine

/-- The engine's turn: the completion step, enabled exactly when PHASE = RUN (R203). -/
def engineTurn (s : State) : Host.Outcome State Fault Refusal :=
  match s.engine with
  | .idle => .next s
  | .run cur =>
    match decode cur with
    | .ok i => exec i s
    | .error _ => .fault .illegalInFlight

/-- One turn. -/
def turn (slot : Slot) (s : State) : Host.Outcome State Fault Refusal :=
  match slot with
  | .access a => busAccess a s
  | .engine => engineTurn s
  | .reset => .next s.resetBlock

/-- Takes the next turn off the schedule and plays it. With nothing scheduled the host is done, so the engine moves: every accepted command completes (R244), and an idle block waits (R231). DEDUCED (notes/assumptions/2.md). -/
def nextTurn (s : State) : Host.Outcome State Fault Refusal :=
  match s.schedule with
  | [] => engineTurn s
  | slot :: rest => turn slot { s with schedule := rest }

/-- The word with its bits numbered as spec/opcode_table.json numbers them has been accepted, and the engine moves next (R201). DEDUCED (notes/assumptions/13.md). -/
def State.withCommand (s : State) (w : Word) : State :=
  { s.accept w with schedule := .engine :: s.schedule }

end Sys2Proof.Machine
end

