-- ==== Sys2Proof/Machine/Step.lean ====
section
/-! DEFINITION. One step of the block: the next turn of the interleaving (20_memory.md R71). -/

namespace Sys2Proof.Machine

/-- One step: a host access, a completion step or reset, as the schedule says. -/
def step (s : State) : Host.Outcome State Fault Refusal := nextTurn s

/-- s with the instruction of these bits accepted and the engine next to move, so that step completes exactly it. -/
def State.withFetchWord (s : State) (nbits w : Nat) : State :=
  s.withCommand (BitVec.ofNat 32 (w % 2 ^ nbits))

end Sys2Proof.Machine
end

