-- ==== Sys2Proof/Machine/Timing.lean ====
section
/-! DEFINITION. What the spec says of time without giving times: a latency per opcode (70_reset_and_hazards.md R242, R243), the fixed pattern of buffer accesses (41_polynomial_layer.md R178), and the one-element-at-a-time datapath that R171 allows beside the atomic step of R170. The step uses none of this. -/

namespace Sys2Proof.Machine

/-- `LAT_<op>` of a command: a function of its opcode alone (R242, R243). -/
def latencyOf (i : Instr) : Nat := Config.latency i.opcode

/-- One access of the engine to a buffer word. -/
inductive BufAccess where
  | read (b : Buf) (i : Nat)
  | write (b : Buf) (i : Nat)
  deriving DecidableEq, Repr

/-- The accesses of a unary vector command, index by index (R171, R178). -/
def unaryAccesses (rd rs1 : Buf) : List BufAccess :=
  (List.range Config.n).flatMap fun i => [.read rs1 i, .write rd i]

/-- The buffer accesses of a command in their order: for i = 0 to 255, index i of the sources, then index i of rd (R171, R178). Scalar commands make none (R34). -/
def bufferAccesses : Instr → List BufAccess
  | .mred => []
  | .red32 => []
  | .caddq => []
  | .freeze => []
  | .mmul => []
  | .vmmul rd rs1 rs2 =>
    (List.range Config.n).flatMap fun i => [.read rs1 i, .read rs2 i, .write rd i]
  | .vred32 rd rs1 => unaryAccesses rd rs1
  | .vcaddq rd rs1 => unaryAccesses rd rs1
  | .vfreeze rd rs1 => unaryAccesses rd rs1

/-- Element i of a source as a signed coefficient (R35). -/
def State.coefficient (s : State) (b : Buf) (i : Nat) : Option Int :=
  match s.readBufWord b i with
  | some w => some w.toInt
  | none => none

/-- The product of element i of two sources (R172). -/
def State.elementProduct (s : State) (b1 b2 : Buf) (i : Nat) : Option Int :=
  match s.coefficient b1 i, s.coefficient b2 i with
  | some x, some y => some (product x y)
  | _, _ => none

/-- The datapath of R171: for each index in turn, read the argument from the state as it stands, then write index i of rd. -/
def elementByElement (F : Int → Int) (ok : Int → Bool) (rd : Buf)
    (arg : State → Nat → Option Int) : List Nat → Bool → State → Host.Outcome State Fault Refusal
  | [], broken, s => .next (s.flagPre broken).finish
  | i :: is, broken, s =>
    match arg s i with
    | some a =>
      elementByElement F ok rd arg is (broken || !ok a) (s.writeBufWord rd i (u32 (F a)))
    | none => .fault .unwrittenRead

/-- The completion step of a command on the element-by-element datapath (R171). -/
def execInOrder (i : Instr) (s : State) : Host.Outcome State Fault Refusal :=
  match i with
  | .mred => exec .mred s
  | .red32 => exec .red32 s
  | .caddq => exec .caddq s
  | .freeze => exec .freeze s
  | .mmul => exec .mmul s
  | .vmmul rd rs1 rs2 =>
    elementByElement mredF preMred rd (fun t j => t.elementProduct rs1 rs2 j)
      (List.range Config.n) false s
  | .vred32 rd rs1 =>
    elementByElement red32F noPrecondition rd (fun t j => t.coefficient rs1 j)
      (List.range Config.n) false s
  | .vcaddq rd rs1 =>
    elementByElement caddqF preCaddq rd (fun t j => t.coefficient rs1 j)
      (List.range Config.n) false s
  | .vfreeze rd rs1 =>
    elementByElement freezeF noPrecondition rd (fun t j => t.coefficient rs1 j)
      (List.range Config.n) false s

end Sys2Proof.Machine
end

