-- ==== Sys2Proof/Machine/HostSyntax.lean ====
section
/-! DEFINITION. The host syntax of 30_encoding.md R98 and the pseudo-instructions of R99, as the turns they put on the schedule, and which buffer words such a program reads before writing them (70_reset_and_hazards.md R234). None is a command of the block. -/

namespace Sys2Proof.Machine

/-- Window offsets of the registers a host sequence names (R25). -/
abbrev offStatus : Offset := 0x004#13
abbrev offCmd : Offset := 0x00C#13
abbrev offSaLo : Offset := 0x010#13
abbrev offSaHi : Offset := 0x014#13
abbrev offSb : Offset := 0x018#13

/-- `wr REG, v` (R98). -/
def hostWr (off : Offset) (v : Word) : List Slot := [.access ⟨.write v, off, 4⟩]

/-- `rd REG` (R98). -/
def hostRd (off : Offset) : List Slot := [.access ⟨.read, off, 4⟩]

/-- `cmd <command>` (R98). -/
def hostCmd (i : Instr) : List Slot := hostWr offCmd (encode i)

/-- `.word w`: a raw command word, legal or not (R98). -/
def rawWord (w : Word) : List Slot := hostWr offCmd w

/-- `wait`: reads of STATUS until BUSY is 0 (R98). How many reads find BUSY = 1 depends on the latency, so it is an argument (R245). -/
def waitAfter (polls : Nat) : List Slot :=
  (List.replicate polls (hostRd offStatus)).flatten ++ [.engine] ++ hostRd offStatus

/-- `fill Pk, f(i)` for i = 0 to 255 in that order (R98). -/
def hostFill (b : Buf) (f : Nat → Word) : List Slot :=
  (List.range Config.n).flatMap fun i => hostWr (BitVec.ofNat 13 (bufOffset b i)) (f i)

/-- `TOMONT` (R99). -/
def tomont : List Slot := hostWr offSb 0x002419FF#32 ++ hostCmd .mmul

/-- `FROMMONT` (R99). -/
def frommont : List Slot := hostWr offSb 0x00000001#32 ++ hostCmd .mmul

/-- `LDA64 v` (R99). -/
def lda64 (v : Int) : List Slot := hostWr offSaLo (u32 v) ++ hostWr offSaHi (u32 (v / 4294967296))

/-- `LDA v` (R99). -/
def lda (v : Int) : List Slot := hostWr offSaLo (u32 v)

/-- `VTOMONT Pd, Ps, Pk` (R99). -/
def vtomont (pd ps pk : Buf) : List Slot := hostFill pk (fun _ => 0x002419FF#32) ++ hostCmd (.vmmul pd ps pk)

/-- `VFROMMONT Pd, Ps, Pk` (R99). -/
def vfrommont (pd ps pk : Buf) : List Slot := hostFill pk (fun _ => 0x00000001#32) ++ hostCmd (.vmmul pd ps pk)

/-- The buffer accesses a performed host access brings about: its own, or those of the command it offers (R64, R178). -/
def hostBufAccesses (kind : AccessKind) (tg : Target) : List BufAccess :=
  match kind, tg with
  | .read, .bufWord b i => [.read b i]
  | .write _, .bufWord b i => [.write b i]
  | .write w, .cmd =>
    match decode w with
    | .ok i => bufferAccesses i
    | .error _ => []
  | _, _ => []

/-- The buffer accesses of one turn of a host program, none if the access is not performed (R62). -/
def slotBufAccesses : Slot → List BufAccess
  | .access a => if isPerformed a then hostBufAccesses a.kind (targetOf a.off.toNat) else []
  | .engine => []
  | .reset => []

/-- The words that a list of accesses reads and that nothing in `written` or earlier in the list writes. -/
def readsBeforeWriting : List BufAccess → List (Buf × Nat) → List (Buf × Nat)
  | [], _ => []
  | .read b i :: rest, written =>
    if (b, i) ∈ written then readsBeforeWriting rest written
    else (b, i) :: readsBeforeWriting rest written
  | .write b i :: rest, written => readsBeforeWriting rest ((b, i) :: written)

/-- Every buffer word a host program reads before writing it (R234), its accesses being performed in their order. -/
def programReads (prog : List Slot) : List (Buf × Nat) :=
  readsBeforeWriting (prog.flatMap slotBufAccesses) []

end Sys2Proof.Machine
end

