-- ==== Sys2Proof/Safety.lean ====
section
/-! DEFINITION. The terms in which statements about the block are made: the invariant every step keeps, which words a command reads, what a completion may change, the premise of R234, and the list of all legal commands (30_encoding.md R97). -/

namespace Sys2Proof.Machine

/-- Reserved bits of CTRL are 0 (R26). -/
abbrev State.ctrlReservedClear (s : State) : Prop := s.ctrl &&& 0xFFFFFFFC#32 = 0#32

/-- Reserved bits of ERR are 0 (R28). -/
abbrev State.errReservedClear (s : State) : Prop := s.err &&& 0xFFFFFFF8#32 = 0#32

/-- CUR, while it exists, is a legal command word (R201, R203). -/
def State.commandLegal (s : State) : Bool :=
  match s.engine with
  | .idle => true
  | .run cur =>
    match decode cur with
    | .ok _ => true
    | .error _ => false

/-- BUSY = 1 and DONE = 1 never hold together (R27). -/
abbrev State.notBusyAndDone (s : State) : Prop := ¬(s.busy = true ∧ s.done = true)

/-- What every reachable state satisfies: the buffers' canonical form, reserved bits 0, a legal command in flight, BUSY excludes DONE. -/
abbrev State.Inv (s : State) : Prop :=
  s.mem.wf ∧ s.ctrlReservedClear ∧ s.errReservedClear ∧ s.commandLegal = true ∧ s.notBusyAndDone

/-- Every word of a buffer has been written since reset (R40, R233). -/
def State.bufferWritten (s : State) (b : Buf) : Prop :=
  ∀ i < Config.n, (s.readBufWord b i).isSome = true

/-- Every buffer word the command reads has been written since reset (R177, R233). -/
def State.sourcesWritten (s : State) : Instr → Prop
  | .mred => True
  | .red32 => True
  | .caddq => True
  | .freeze => True
  | .mmul => True
  | .vmmul _ rs1 rs2 => s.bufferWritten rs1 ∧ s.bufferWritten rs2
  | .vred32 _ rs1 => s.bufferWritten rs1
  | .vcaddq _ rs1 => s.bufferWritten rs1
  | .vfreeze _ rs1 => s.bufferWritten rs1

/-- t is s after a scalar completion that wrote SR and ERR: nothing else differs but PHASE, BUSY and DONE (R203, D28). -/
def scalarFrame (s t : State) : Prop :=
  t = { s with sr := t.sr, err := t.err, engine := .idle, done := true }

/-- Window offset `a` lies in buffer b (R34). -/
def inBuffer (b : Buf) (a : Nat) : Prop := bufOffset b 0 ≤ a ∧ a < bufOffset b 0 + 4 * Config.n

/-- t is s after a vector completion into P[rd]: nothing else differs but ERR, PHASE, BUSY and DONE, and every byte outside P[rd] reads as before (R170, R203). -/
def vectorFrame (rd : Buf) (s t : State) : Prop :=
  t = { s with mem := t.mem, err := t.err, engine := .idle, done := true } ∧
    ∀ a, ¬inBuffer rd a → t.mem.readByte a = s.mem.readByte a

/-- ERR after a completion: PRE set if some input broke the precondition, every other bit as before (R204). -/
def errAfter (s t : State) (broken : Prop) : Prop :=
  (broken → t.err = s.err ||| 4#32) ∧ (¬broken → t.err = s.err)

/-- The values the launch premise of R234 names: those of SA_LO, SA_HI, SB and CTRL, and of buffer words. -/
structure EntryValues where
  saLo : Word
  saHi : Word
  sb : Word
  ctrl : Word
  words : List ((Buf × Nat) × Word)
  deriving DecidableEq, Repr

/-- The clean-entry state of R234 for a host program, at the values v: PHASE = IDLE, ERR = 0, every word the program reads before writing it is named by v, the named words are written with the named values, and SA_LO, SA_HI, SB and CTRL hold theirs. -/
def State.cleanEntry (s : State) (prog : List Slot) (v : EntryValues) : Prop :=
  s.engine = .idle ∧ s.err = 0#32 ∧
    (∀ p ∈ programReads prog, ∃ w, (p, w) ∈ v.words) ∧
    (∀ e ∈ v.words, s.readBufWord e.1.1 e.1.2 = some e.2) ∧
    s.saLo = v.saLo ∧ s.saHi = v.saHi ∧ s.sb = v.sb ∧ s.ctrl = v.ctrl

/-- The run of a host program has ended: no access is left and PHASE = IDLE (R245). -/
def State.ended (s : State) : Prop := s.schedule = [] ∧ s.engine = .idle

/-- The observation of a run (R245): the final registers and buffer words, and the answers to the host's accesses. -/
structure Observation where
  sr : Word
  saLo : Word
  saHi : Word
  sb : Word
  ctrl : Word
  status : Word
  err : Word
  mem : Memory
  replies : List Reply
  deriving DecidableEq, Repr

/-- What is observed of a final state (R245). -/
def observe (s : State) : Observation :=
  ⟨s.sr, s.saLo, s.saHi, s.sb, s.ctrl, s.status, s.err, s.mem, s.replies⟩

/-- s with one turn put before its schedule, so that step plays that turn. -/
def State.plan (s : State) (slot : Slot) : State := { s with schedule := slot :: s.schedule }

/-- The engine moves next: its turn is due, or nothing is scheduled (R71, R244). -/
def State.engineMoves (s : State) : Prop := s.schedule = [] ∨ ∃ rest, s.schedule = .engine :: rest

/-- Reset comes next (R230). -/
def State.resetNext (s : State) : Prop := ∃ rest, s.schedule = .reset :: rest

/-- The host's next access is an aligned 4-byte write of wdata at the offset. -/
def State.writesNext (s : State) (off : Offset) (wdata : Word) : Prop :=
  ∃ rest, s.schedule = .access ⟨.write wdata, off, 4⟩ :: rest

/-- The step completes command i (R203). -/
def State.completes (s : State) (i : Instr) : Prop :=
  s.engineMoves ∧ ∃ cur, s.engine = .run cur ∧ decode cur = .ok i

/-- SA as R23 writes it: SA_HI signed times 2^32, plus SA_LO unsigned. -/
def State.saValue (s : State) : Int := s.saHi.toInt * 4294967296 + s.saLo.toNat

/-- x ≡ y (mod m) (R12). -/
abbrev congruent (m x y : Int) : Prop := m ∣ x - y

/-- PreMRED as R125 writes it. -/
abbrev withinMred (a : Int) : Prop :=
  -(8380417 * 2147483648) ≤ a ∧ a ≤ 8380417 * 2147483648

/-- PreCADDQ as R131 writes it. -/
abbrev withinCaddq (a : Int) : Prop := -8380417 ≤ a ∧ a < 8380417

/-- Some input of the command breaks the precondition of its function (R204, R205). -/
def State.breaksPrecondition (s : State) : Instr → Prop
  | .mred => ¬withinMred s.saValue
  | .red32 => False
  | .caddq => ¬withinCaddq s.saLo.toInt
  | .freeze => False
  | .mmul => ¬withinMred (s.saLo.toInt * s.sb.toInt)
  | .vmmul _ rs1 rs2 => ∃ i < Config.n, ∃ x y, s.readBufWord rs1 i = some x ∧
      s.readBufWord rs2 i = some y ∧ ¬withinMred (x.toInt * y.toInt)
  | .vred32 _ _ => False
  | .vcaddq _ rs1 => ∃ i < Config.n, ∃ x, s.readBufWord rs1 i = some x ∧ ¬withinCaddq x.toInt
  | .vfreeze _ _ => False

/-- R145: the source's testable property of a scalar command, of the state t that its completion leaves when it starts in s, with the bounds as R123 and R128 correct them. R145 names no property of MMUL, nor of a vector command. -/
def testableProperty (s t : State) : Instr → Prop
  | .mred => withinMred s.saValue →
      congruent 8380417 (t.sr.toInt * 4294967296) s.saValue ∧
      congruent 8380417 t.sr.toInt (s.saValue * 8265825) ∧
      (s.saValue ≠ 8380417 * 2147483648 → -8380417 < t.sr.toInt ∧ t.sr.toInt < 8380417) ∧
      (s.saValue = 8380417 * 2147483648 → t.sr.toInt = 8380417)
  | .red32 => congruent 8380417 t.sr.toInt s.saLo.toInt ∧
      -6283009 ≤ t.sr.toInt ∧ t.sr.toInt ≤ 6283008
  | .caddq => withinCaddq s.saLo.toInt →
      congruent 8380417 t.sr.toInt s.saLo.toInt ∧ 0 ≤ t.sr.toInt ∧ t.sr.toInt < 8380417
  | .freeze => congruent 8380417 t.sr.toInt s.saLo.toInt ∧
      0 ≤ t.sr.toInt ∧ t.sr.toInt < 8380417 ∧
      ∃ u, exec .freeze { t with saLo := t.sr } = .next u ∧ u.sr = t.sr
  | .mmul => True
  | .vmmul _ _ _ => True
  | .vred32 _ _ => True
  | .vcaddq _ _ => True
  | .vfreeze _ _ => True

/-- Two states give the command the same operands: the registers or source words it reads (D27, R170). -/
def sameOperands (s t : State) : Instr → Prop
  | .mred => s.saLo = t.saLo ∧ s.saHi = t.saHi
  | .red32 => s.saLo = t.saLo
  | .caddq => s.saLo = t.saLo
  | .freeze => s.saLo = t.saLo
  | .mmul => s.saLo = t.saLo ∧ s.sb = t.sb
  | .vmmul _ rs1 rs2 => ∀ i < Config.n, s.readBufWord rs1 i = t.readBufWord rs1 i ∧
      s.readBufWord rs2 i = t.readBufWord rs2 i
  | .vred32 _ rs1 => ∀ i < Config.n, s.readBufWord rs1 i = t.readBufWord rs1 i
  | .vcaddq _ rs1 => ∀ i < Config.n, s.readBufWord rs1 i = t.readBufWord rs1 i
  | .vfreeze _ rs1 => ∀ i < Config.n, s.readBufWord rs1 i = t.readBufWord rs1 i

/-- Two states hold the same result of the command: SR, or the words of P[rd] (D28). -/
def sameResult (s t : State) : Instr → Prop
  | .mred => s.sr = t.sr
  | .red32 => s.sr = t.sr
  | .caddq => s.sr = t.sr
  | .freeze => s.sr = t.sr
  | .mmul => s.sr = t.sr
  | .vmmul rd _ _ => ∀ i < Config.n, s.readBufWord rd i = t.readBufWord rd i
  | .vred32 rd _ => ∀ i < Config.n, s.readBufWord rd i = t.readBufWord rd i
  | .vcaddq rd _ => ∀ i < Config.n, s.readBufWord rd i = t.readBufWord rd i
  | .vfreeze rd _ => ∀ i < Config.n, s.readBufWord rd i = t.readBufWord rd i

/-- The protected offsets, as R39 lists them. -/
def protectedOffset (off : Nat) : Prop :=
  off = 0x010 ∨ off = 0x014 ∨ off = 0x018 ∨ off = 0x01C ∨ off = 0x00C ∨ (0x400 ≤ off ∧ off < 0x1400)

/-- A 4-byte read at the offset answers v and changes nothing. -/
def State.readsAs (s : State) (off : Offset) (v : Word) : Prop :=
  step (s.plan (.access ⟨.read, off, 4⟩)) = .next { s with replies := .data v :: s.replies }

/-- A 4-byte write of wdata at the offset is answered OKAY and leaves the block as t is. -/
def State.writeLeaves (s : State) (off : Offset) (wdata : Word) (t : State) : Prop :=
  step (s.plan (.access ⟨.write wdata, off, 4⟩)) = .next { t with replies := .written :: s.replies }

/-- k steps. -/
def run (k : Nat) (s : State) : Host.Outcome State Fault Refusal := Host.Core.run core k s

/-- The four buffer names. -/
def allBufs : List Buf := [.p0, .p1, .p2, .p3]

/-- The five scalar commands (R97). -/
def scalarCommands : List Instr := [.mred, .red32, .caddq, .freeze, .mmul]

/-- The forms of VMMUL (R97). -/
def vmmulCommands : List Instr :=
  allBufs.flatMap fun d => allBufs.flatMap fun a => allBufs.map fun b => .vmmul d a b

/-- The forms of VRED32, VCADDQ and VFREEZE (R97). -/
def unaryCommands : List Instr :=
  allBufs.flatMap fun d => allBufs.flatMap fun a => [.vred32 d a, .vcaddq d a, .vfreeze d a]

/-- Every legal command. -/
def allCommands : List Instr := scalarCommands ++ vmmulCommands ++ unaryCommands

end Sys2Proof.Machine
end

