-- ==== Sys2Proof/Certificates/Slice0/Obligations.lean ====
section
/-! DEFINITION. The statements about the block, each a proposition that the provers settle, in the order of the spec's files: encoding, kernel functions, completion steps, bus, lifecycle, whole-machine rules. -/

open Sys2Proof Sys2Proof.Machine

/-! Encoding (30_encoding.md). -/

/-- R91, R95, R98, D32: decoding a command's word gives the command back, and a legal word is the word of the command it decodes to, so every command has exactly one encoding. -/
def Obligations.DecodeAndEncodeAreInverse : Prop :=
  (∀ i : Instr, decode (encode i) = .ok i) ∧
    ∀ (w : Word) (i : Instr), decode w = .ok i → encode i = w

/-- R94, R95: on every word the decoder agrees with the match/mask table, in the mnemonic too, and no word matches two rows. -/
def Obligations.DecodeAgreesWithOpcodeTable : Prop :=
  (∀ (w : Word) (i : Instr), decode w = .ok i →
      ∃ r ∈ opcodeTable, r.encodes w = true ∧ r.mnemonic = i.mnemonic) ∧
    (∀ (w : Word), ∀ r ∈ opcodeTable, r.encodes w = true →
      ∃ i, decode w = .ok i ∧ i.mnemonic = r.mnemonic) ∧
    ∀ (w : Word), ∀ r ∈ opcodeTable, ∀ r' ∈ opcodeTable,
      r.encodes w = true → r'.encodes w = true → r = r'

/-- R95, R96: a word is illegal exactly when it fails a check of R95 (on the reserved bits, on the opcode, on the fields the opcode does not use, by R92 and R93), in R95's order. The names that decode gives the grounds are the model's own (notes/assumptions/24.md). -/
def Obligations.IllegalWordsByGround : Prop :=
  ∀ w : Word,
    (decode w = .error .reservedBits ↔ reservedBitsClear w = false) ∧
    (decode w = .error .unassignedOpcode ↔
      reservedBitsClear w = true ∧ opcodeAssigned w = false) ∧
    (decode w = .error .unusedField ↔
      reservedBitsClear w = true ∧ opcodeAssigned w = true ∧ unusedFieldsClear w = false) ∧
    ((∃ i, decode w = .ok i) ↔ wellFormedWord w = true)

/-- R97: 5 scalar words, 64 words of VMMUL, 48 of the unary vector commands, 117 in all, and every other word is illegal. -/
def Obligations.LegalWordCount : Prop :=
  (scalarCommands.map encode).length = 5 ∧ (vmmulCommands.map encode).length = 64 ∧
    (unaryCommands.map encode).length = 48 ∧ (allCommands.map encode).length = 117 ∧
    (allCommands.map encode).Nodup ∧
    ∀ w : Word, (∃ i, decode w = .ok i) ↔ w ∈ allCommands.map encode

/-- R98: the words of the assembly syntax, as numbers. -/
def Obligations.AssembledWords : Prop :=
  (encode .mred).toNat = 1 ∧ (encode .red32).toNat = 2 ∧ (encode .caddq).toNat = 3 ∧
    (encode .freeze).toNat = 4 ∧ (encode .mmul).toNat = 5 ∧
    ∀ d a b : Buf,
      (encode (.vmmul d a b)).toNat =
        0x11 + bufIndex d * 2 ^ 8 + bufIndex a * 2 ^ 10 + bufIndex b * 2 ^ 12 ∧
      (encode (.vred32 d a)).toNat = 0x12 + bufIndex d * 2 ^ 8 + bufIndex a * 2 ^ 10 ∧
      (encode (.vcaddq d a)).toNat = 0x13 + bufIndex d * 2 ^ 8 + bufIndex a * 2 ^ 10 ∧
      (encode (.vfreeze d a)).toNat = 0x14 + bufIndex d * 2 ^ 8 + bufIndex a * 2 ^ 10

/-- R100: the worked encodings, legal and illegal, with the fields the table shows. -/
def Obligations.WorkedEncodings : Prop :=
  decode 0x00000001#32 = .ok .mred ∧ decode 0x00000004#32 = .ok .freeze ∧
    decode 0x00001211#32 = .ok (.vmmul .p2 .p0 .p1) ∧
    decode 0x00003F11#32 = .ok (.vmmul .p3 .p3 .p3) ∧
    decode 0x00000B14#32 = .ok (.vfreeze .p3 .p2) ∧
    decode 0x00000012#32 = .ok (.vred32 .p0 .p0) ∧
    decode 0x00000913#32 = .ok (.vcaddq .p1 .p2) ∧
    decode 0x00000000#32 = .error .unassignedOpcode ∧
    decode 0x00001B14#32 = .error .unusedField ∧
    decode 0x00000101#32 = .error .unusedField ∧
    decode 0x00004002#32 = .error .reservedBits

/-! The kernel functions (40_reduction_kernel.md). -/

/-- R6, R120: what the constants are to q. -/
def Obligations.ConstantsOfTheModulus : Prop :=
  Config.q = 2 ^ 23 - 2 ^ 13 + 1 ∧ Config.q * Config.qinv % 2 ^ 32 = 1 ∧
    Config.mont + Config.q = 2 ^ 32 % Config.q ∧ Config.mont2 = 2 ^ 64 % Config.q ∧
    2 ^ 32 * 8265825 % Config.q = 1

/-- R122: for every 64-bit a the low 32 bits of d are zero, so bits 63:32 of d, d / 2^32 and the arithmetic shift are one and the same. -/
def Obligations.MontgomeryDifferenceDivides : Prop :=
  ∀ a : Int, -2 ^ 63 ≤ a → a < 2 ^ 63 →
    s64 (a - s32 (a * 58728449) * 8380417) % 2 ^ 32 = 0 ∧
      mredF a * 2 ^ 32 = s64 (a - s32 (a * 58728449) * 8380417)

/-- R123: the guarantee of montgomery_reduce inside its precondition, with the one input that gives q. -/
def Obligations.MontgomeryGuarantee : Prop :=
  ∀ a : Int, -(8380417 * 2 ^ 31) ≤ a → a ≤ 8380417 * 2 ^ 31 →
    congruent 8380417 (mredF a * 2 ^ 32) a ∧ congruent 8380417 (mredF a) (a * 8265825) ∧
      -8380417 < mredF a ∧ mredF a ≤ 8380417 ∧
      (mredF a = 8380417 ↔ a = 8380417 * 2 ^ 31) ∧
      (a = 8380417 * 2 ^ 31 → mredFactor a = -2 ^ 31 ∧ mredDifference a = 8380417 * 2 ^ 32) ∧
      -(8380417 * 2 ^ 32) ≤ a - mredFactor a * 8380417 ∧
      a - mredFactor a * 8380417 ≤ 8380417 * 2 ^ 32

/-- R124: outside the precondition the value is still the formula's, congruent as long as the difference does not wrap; the two worked values. -/
def Obligations.MontgomeryOutsidePrecondition : Prop :=
  (∀ a : Int, -2 ^ 63 + (2 ^ 31 - 1) * 8380417 ≤ a → a < 2 ^ 63 - 2 ^ 31 * 8380417 →
      mredF a * 2 ^ 32 = a - s32 (a * 58728449) * 8380417 ∧
      congruent 8380417 (mredF a * 2 ^ 32) a ∧ -2 ^ 31 ≤ mredF a ∧ mredF a < 2 ^ 31) ∧
    mredF (8380417 * 2 ^ 31 + 1) = 8265825 ∧ mredF (2 ^ 63 - 1) = -2147369056 ∧
    ¬congruent 8380417 (mredF (2 ^ 63 - 1) * 2 ^ 32) (2 ^ 63 - 1)

/-- R127: the form of reduce32 with shifts, adds and subtracts alone gives the same value, and its residual a0 lies in [−2^22, 2^22). -/
def Obligations.Reduce32ShiftForm : Prop :=
  ∀ a a1 a0 : Int, -2 ^ 31 ≤ a → a < 2 ^ 31 → a1 = (a + 2 ^ 22) / 2 ^ 23 →
    a0 = a - a1 * 2 ^ 23 →
    -2 ^ 22 ≤ a0 ∧ a0 < 2 ^ 22 ∧ red32F a = a0 + a1 * 2 ^ 13 - a1

/-- R128: reduce32 is congruent to its input and lies in [−6283009, 6283008], each end reached by exactly one input; the looser bounds hold and the bound of I2 does not. -/
def Obligations.Reduce32Guarantee : Prop :=
  (∀ a : Int, -2 ^ 31 ≤ a → a < 2 ^ 31 →
      congruent 8380417 (red32F a) a ∧ -6283009 ≤ red32F a ∧ red32F a ≤ 6283008 ∧
      (red32F a = -6283009 ↔ a = -2143289344) ∧ (red32F a = 6283008 ↔ a = 2143289343) ∧
      -8380417 - 2 ^ 13 < red32F a ∧ red32F a < 8380417 + 2 ^ 13) ∧
    ∃ a : Int, -2 ^ 31 ≤ a ∧ a < 2 ^ 31 ∧ red32F a ≤ -(8380417 / 2)

/-- R130, R131: caddq adds q to a negative value alone, never leaves the 32-bit range, and is canonical on [−q, q). -/
def Obligations.CaddqGuarantee : Prop :=
  (∀ a : Int, -2 ^ 31 ≤ a → a < 2 ^ 31 →
      caddqF a = (if a < 0 then a + 8380417 else a) ∧
      -2 ^ 31 ≤ caddqF a ∧ caddqF a < 2 ^ 31 ∧ congruent 8380417 (caddqF a) a ∧
      ((0 ≤ caddqF a ∧ caddqF a < 8380417) ↔ withinCaddq a) ∧
      (preCaddq a = true ↔ withinCaddq a)) ∧
    caddqF 8380417 = 8380417 ∧ caddqF (-8380417 - 1) = -1 ∧
    (∀ a : Int, -6283009 ≤ a → a ≤ 6283008 → withinCaddq a) ∧ withinCaddq (-8380417)

/-- R132: freeze is the canonical representative of every 32-bit value, and is idempotent. -/
def Obligations.FreezeIsCanonical : Prop :=
  ∀ a : Int, -2 ^ 31 ≤ a → a < 2 ^ 31 →
    freezeF a = a % 8380417 ∧ freezeF (freezeF a) = freezeF a

/-- R133: the Montgomery product is exact and congruent for every pair, bounded inside the precondition; multiplying by MONT2 gives the Montgomery form, and the round trip gives x mod q. -/
def Obligations.MontgomeryProductGuarantee : Prop :=
  ∀ x y : Int, -2 ^ 31 ≤ x → x < 2 ^ 31 → -2 ^ 31 ≤ y → y < 2 ^ 31 →
    -2 ^ 62 ≤ x * y ∧ x * y ≤ 2 ^ 62 ∧ congruent 8380417 (mmulF x y * 2 ^ 32) (x * y) ∧
      (withinMred (x * y) → -8380417 < mmulF x y ∧ mmulF x y ≤ 8380417) ∧
      (-8380417 < x → x < 8380417 → -8380417 < y → y < 8380417 →
        -8380417 < mmulF x y ∧ mmulF x y < 8380417) ∧
      withinMred (x * 2365951) ∧ congruent 8380417 (mmulF x 2365951) (x * 2 ^ 32) ∧
      -8380417 < mmulF x 2365951 ∧ mmulF x 2365951 < 8380417 ∧
      freezeF (mredF (mmulF x 2365951)) = x % 8380417

/-! The completion steps (40_reduction_kernel.md section 2, 41_polynomial_layer.md). -/

/-- R140, R23, R145: MRED completes in every state with SR the Montgomery reduction of SA, ERR.PRE set outside the precondition, nothing else changed, and the source's testable property. -/
def Obligations.MredCompletes : Prop :=
  ∀ s : State, ∃ t, exec .mred s = .next t ∧ scalarFrame s t ∧
    t.sr.toInt * 2 ^ 32 = s64 (s.saValue - s32 (s.saValue * 58728449) * 8380417) ∧
    errAfter s t (¬withinMred s.saValue) ∧ testableProperty s t .mred

/-- R141, R126, R145: RED32 completes in every state with SR = a − a1·q, sets no error, changes nothing else, and has the source's testable property with the range of R128. -/
def Obligations.Red32Completes : Prop :=
  ∀ s : State, ∃ t, exec .red32 s = .next t ∧ scalarFrame s t ∧ t.err = s.err ∧
    t.sr.toInt = s.saLo.toInt - (s.saLo.toInt + 2 ^ 22) / 2 ^ 23 * 8380417 ∧
    testableProperty s t .red32

/-- R142, R130, R131, R145: CADDQ completes in every state, adding q to a negative SA_LO alone, ERR.PRE set outside [−q, q), nothing else changed, and the source's testable property. -/
def Obligations.CaddqCompletes : Prop :=
  ∀ s : State, ∃ t, exec .caddq s = .next t ∧ scalarFrame s t ∧
    t.sr.toInt = (if s.saLo.toInt < 0 then s.saLo.toInt + 8380417 else s.saLo.toInt) ∧
    errAfter s t (¬withinCaddq s.saLo.toInt) ∧ testableProperty s t .caddq

/-- R143, R132, R145: FREEZE completes in every state with SR = SA_LO mod q, sets no error, changes nothing else, and has the source's testable property, idempotence included. -/
def Obligations.FreezeCompletes : Prop :=
  ∀ s : State, ∃ t, exec .freeze s = .next t ∧ scalarFrame s t ∧ t.err = s.err ∧
    t.sr.toInt = s.saLo.toInt % 8380417 ∧ testableProperty s t .freeze

/-- R144, R133: MMUL completes in every state with SR the Montgomery reduction of the exact product SA_LO·SB, ERR.PRE set outside the precondition, and nothing else changed. -/
def Obligations.MmulCompletes : Prop :=
  ∀ s : State, ∃ t, exec .mmul s = .next t ∧ scalarFrame s t ∧
    t.sr.toInt * 2 ^ 32 = s.saLo.toInt * s.sb.toInt -
      s32 (s.saLo.toInt * s.sb.toInt * 58728449) * 8380417 ∧
    errAfter s t (¬withinMred (s.saLo.toInt * s.sb.toInt))

/-- R172, R170, R171: VMMUL, with every source word written, completes with word i of P[rd] the Montgomery product of the words i the sources held before, any buffers coinciding, ERR.PRE set if one product breaks the bound, and nothing else changed. -/
def Obligations.VmmulCompletes : Prop :=
  ∀ (s : State) (d a b : Buf), s.bufferWritten a → s.bufferWritten b →
    ∃ t, exec (.vmmul d a b) s = .next t ∧ vectorFrame d s t ∧
      (∀ i < 256, ∀ x y : Word, s.readBufWord a i = some x → s.readBufWord b i = some y →
        ∃ r : Word, t.readBufWord d i = some r ∧
          r.toInt * 2 ^ 32 = x.toInt * y.toInt - s32 (x.toInt * y.toInt * 58728449) * 8380417) ∧
      errAfter s t (s.breaksPrecondition (.vmmul d a b))

/-- R173, R170, R171: VRED32, with every source word written, completes with word i of P[rd] the reduce32 of the word i the source held before, no error set, and nothing else changed. -/
def Obligations.Vred32Completes : Prop :=
  ∀ (s : State) (d a : Buf), s.bufferWritten a →
    ∃ t, exec (.vred32 d a) s = .next t ∧ vectorFrame d s t ∧ t.err = s.err ∧
      ∀ i < 256, ∀ x : Word, s.readBufWord a i = some x →
        ∃ r : Word, t.readBufWord d i = some r ∧
          r.toInt = x.toInt - (x.toInt + 2 ^ 22) / 2 ^ 23 * 8380417

/-- R174, R170, R171: VCADDQ, with every source word written, completes with q added to the negative words alone, ERR.PRE set if one word lies outside [−q, q), and nothing else changed. -/
def Obligations.VcaddqCompletes : Prop :=
  ∀ (s : State) (d a : Buf), s.bufferWritten a →
    ∃ t, exec (.vcaddq d a) s = .next t ∧ vectorFrame d s t ∧
      (∀ i < 256, ∀ x : Word, s.readBufWord a i = some x →
        ∃ r : Word, t.readBufWord d i = some r ∧
          r.toInt = if x.toInt < 0 then x.toInt + 8380417 else x.toInt) ∧
      errAfter s t (s.breaksPrecondition (.vcaddq d a))

/-- R175, R170, R171: VFREEZE, with every source word written, completes with word i of P[rd] the word i of the source mod q, no error set, and nothing else changed. -/
def Obligations.VfreezeCompletes : Prop :=
  ∀ (s : State) (d a : Buf), s.bufferWritten a →
    ∃ t, exec (.vfreeze d a) s = .next t ∧ vectorFrame d s t ∧ t.err = s.err ∧
      ∀ i < 256, ∀ x : Word, s.readBufWord a i = some x →
        ∃ r : Word, t.readBufWord d i = some r ∧ r.toInt = x.toInt % 8380417

/-- R176: after VFREEZE every word of P[d] is canonical, whatever the source held. -/
def Obligations.VfreezeOutputIsCanonical : Prop :=
  ∀ (s t : State) (d a : Buf), exec (.vfreeze d a) s = .next t →
    ∀ i < 256, ∃ r : Word, t.readBufWord d i = some r ∧ 0 ≤ r.toInt ∧ r.toInt < 8380417

/-- R175: VFREEZE applied to its own output leaves every word as it was. -/
def Obligations.VfreezeTwiceEqualsOnce : Prop :=
  ∀ (s t : State) (d a e : Buf), exec (.vfreeze d a) s = .next t →
    ∃ u, exec (.vfreeze e d) t = .next u ∧
      ∀ i < 256, u.readBufWord e i = t.readBufWord d i

/-- R174: VCADDQ in place after VRED32 gives what VFREEZE gives, and sets no PRE. -/
def Obligations.VcaddqAfterVred32IsVfreeze : Prop :=
  ∀ (s t f : State) (d a : Buf), exec (.vred32 d a) s = .next t →
    exec (.vfreeze d a) s = .next f →
    ∃ u, exec (.vcaddq d d) t = .next u ∧ u = { f with mem := u.mem } ∧
      ∀ o, u.mem.readByte o = f.mem.readByte o

/-- R171: processing the elements one at a time, index i of the sources and then index i of rd, gives the same outcome as the atomic step, any buffers coinciding. -/
def Obligations.ElementOrderIsExact : Prop :=
  ∀ (i : Instr) (s : State), execInOrder i s = exec i s

/-- R177, R178: a command faults exactly when its fixed access pattern reads a word without a value, completes otherwise, and writes no byte outside the pattern's writes. -/
def Obligations.AccessPatternDecidesFault : Prop :=
  ∀ (i : Instr) (s : State),
    (exec i s = .fault .unwrittenRead ↔
      ∃ b j, BufAccess.read b j ∈ bufferAccesses i ∧ s.readBufWord b j = none) ∧
    ((∃ t, exec i s = .next t) ↔ s.sourcesWritten i) ∧
    ∀ t, exec i s = .next t → ∀ o,
      (∀ b j, BufAccess.write b j ∈ bufferAccesses i → ¬(bufOffset b j ≤ o ∧ o < bufOffset b j + 4)) →
      t.mem.readByte o = s.mem.readByte o

/-- R18, R178: the values in the buffers and registers decide neither whether a command completes nor which bytes hold a value after it; which bytes held one before does. -/
def Obligations.ValuesDoNotSteerAccesses : Prop :=
  ∀ (i : Instr) (s s' t : State), s.mem.map Prod.fst = s'.mem.map Prod.fst →
    exec i s = .next t →
    ∃ t', exec i s' = .next t' ∧ t.mem.map Prod.fst = t'.mem.map Prod.fst

/-- R19, R204, D27: a command's result and its PRE flag depend on its own operands and opcode alone: on no other register, no other buffer, and no earlier error. -/
def Obligations.ResultsDependOnOperandsAlone : Prop :=
  ∀ (i : Instr) (s s' t : State), sameOperands s s' i → exec i s = .next t →
    ∃ t', exec i s' = .next t' ∧ sameResult t t' i ∧
      ((t.err = s.err ∧ t'.err = s'.err) ∨ (t.err = s.err ||| 4#32 ∧ t'.err = s'.err ||| 4#32))

/-! The bus (20_memory.md, 10_state.md). -/

/-- R60, D2: the window's base is a multiple of 0x2000, and a platform address of the window names its offset and no other. -/
def Obligations.WindowDecoding : Prop :=
  Config.base % 0x2000 = 0 ∧
    (∀ off : Offset, offsetOfPlatform (Config.platformAddress off) = some off) ∧
    ∀ (addr : Nat) (off : Offset), offsetOfPlatform addr = some off →
      addr = Config.platformAddress off

/-- R62: an access of another size or a misaligned one is answered ERROR with rdata 0 and changes nothing of the block, idle or busy. -/
def Obligations.WrongSizeOrAlignmentIsBusError : Prop :=
  ∀ (s : State) (a : Access), a.size ≠ 4 ∨ a.off.toNat % 4 ≠ 0 →
    ∃ r : Reply, r.response = .error ∧ r.rdata = some 0#32 ∧
      step (s.plan (.access a)) = .next { s with replies := r :: s.replies }

/-- R66, R39: while RUN, an access to a protected offset is dropped: ERR.BUSYACC is set, a read returns 0, the response is OKAY, and nothing else changes. -/
def Obligations.BusyAccessIsDropped : Prop :=
  ∀ (s : State) (cur : Word) (a : Access), s.engine = .run cur → a.size = 4 →
    a.off.toNat % 4 = 0 → protectedOffset a.off.toNat →
    ∃ r : Reply, r.response = .okay ∧ (a.kind = .read → r.rdata = some 0#32) ∧
      step (s.plan (.access a)) = .next { s with err := s.err ||| 2#32, replies := r :: s.replies }

/-- R64, R26 to R28: CTRL, STATUS and ERR can be read at any time, idle or busy, and reading changes nothing. -/
def Obligations.UnprotectedReads : Prop :=
  ∀ s : State, s.readsAs 0x000#13 s.ctrl ∧ s.readsAs 0x008#13 s.err ∧
    ∃ v : Word, s.readsAs 0x004#13 v ∧
      v.toNat = (if s.engine = .idle then 0 else 1) + (if s.done = true then 2 else 0)

/-- R64, R22, R29, R177: while IDLE the operand and result registers read as they stand, CMD reads 0, a written buffer word reads as it stands, and reading an unwritten one is a fault of the run. -/
def Obligations.IdleReadsOfProtectedOffsets : Prop :=
  ∀ s : State, s.engine = .idle →
    s.readsAs 0x010#13 s.saLo ∧ s.readsAs 0x014#13 s.saHi ∧ s.readsAs 0x018#13 s.sb ∧
      s.readsAs 0x01C#13 s.sr ∧ s.readsAs 0x00C#13 0#32 ∧
      ∀ (b : Buf) (i : Nat) (off : Offset), i < 256 →
        off.toNat = 0x400 + 0x400 * bufIndex b + 4 * i →
        (∀ w, s.readBufWord b i = some w → s.readsAs off w) ∧
        (s.readBufWord b i = none →
          step (s.plan (.access ⟨.read, off, 4⟩)) = .fault .unwrittenRead)

/-- R26, R27, R28, R64: a write to CTRL stores bits 1:0, a write to STATUS clears DONE where bit 1 is 1 and nothing else, a write to ERR clears the bits of 2:0 written 1 and keeps the others; idle or busy. -/
def Obligations.UnprotectedWrites : Prop :=
  ∀ (s : State) (w : Word),
    (∃ c : Word, s.writeLeaves 0x000#13 w { s with ctrl := c } ∧ c.toNat = w.toNat % 4) ∧
      s.writeLeaves 0x004#13 w { s with done := if w.getLsbD 1 then false else s.done } ∧
      ∃ e : Word, s.writeLeaves 0x008#13 w { s with err := e } ∧
        (∀ k < 3, e.getLsbD k = (s.err.getLsbD k && !(w.getLsbD k))) ∧
        ∀ k, 3 ≤ k → e.getLsbD k = s.err.getLsbD k

/-- R22, R24, R34, R63, R64: while IDLE a write to SA_LO, SA_HI or SB stores the word, a write to SR is ignored, and a write to word i of Pk stores it little-endian and leaves every other byte. -/
def Obligations.IdleWritesOfProtectedOffsets : Prop :=
  ∀ (s : State) (w : Word), s.engine = .idle →
    s.writeLeaves 0x010#13 w { s with saLo := w } ∧
      s.writeLeaves 0x014#13 w { s with saHi := w } ∧
      s.writeLeaves 0x018#13 w { s with sb := w } ∧
      s.writeLeaves 0x01C#13 w s ∧
      ∀ (b : Buf) (i : Nat) (off : Offset), i < 256 →
        off.toNat = 0x400 + 0x400 * bufIndex b + 4 * i →
        ∃ m : Memory, s.writeLeaves off w { s with mem := m } ∧
          State.readBufWord { s with mem := m } b i = some w ∧
          (∀ j < 4, m.readByte (off.toNat + j) =
            some (BitVec.ofNat 8 (w.toNat / 2 ^ (8 * j)))) ∧
          ∀ o, ¬(off.toNat ≤ o ∧ o < off.toNat + 4) → m.readByte o = s.mem.readByte o

/-- R30, R31, R32: the constant registers read their fixed words at any time, and writes to them are ignored and set no error; what the words are to q. -/
def Obligations.ConstantRegisters : Prop :=
  (∀ (s : State) (w : Word),
      s.readsAs 0x020#13 0x007FE001#32 ∧ s.readsAs 0x024#13 0x03802001#32 ∧
      s.readsAs 0x028#13 0xFFC01DFF#32 ∧ s.writeLeaves 0x020#13 w s ∧
      s.writeLeaves 0x024#13 w s ∧ s.writeLeaves 0x028#13 w s) ∧
    (0x007FE001#32).toInt = 2 ^ 23 - 2 ^ 13 + 1 ∧ (0x007FE001#32).toNat = 8380417 ∧
    (0x03802001#32).toInt = 58728449 ∧ (8380417 * 58728449 : Int) % 2 ^ 32 = 1 ∧
    (0xFFC01DFF#32).toInt = -4186625 ∧ (2 ^ 32 : Int) % 8380417 = 4193792 ∧
    (-4186625 : Int) + 8380417 = 4193792

/-- R33: a reserved offset reads 0 and ignores writes, idle or busy, and sets no ERR bit. -/
def Obligations.ReservedOffsets : Prop :=
  ∀ (s : State) (off : Offset) (w : Word), off.toNat % 4 = 0 →
    (0x02C ≤ off.toNat ∧ off.toNat ≤ 0x3FC) ∨ (0x1400 ≤ off.toNat ∧ off.toNat ≤ 0x1FFC) →
    s.readsAs off 0#32 ∧ s.writeLeaves off w s

/-- R68: every access but a write to CMD is idempotent on the block's state, and while IDLE no read changes it at all. -/
def Obligations.RepeatedAccessIsIdempotent : Prop :=
  (∀ (s t : State) (a : Access), (∀ w, a.kind = .write w → a.off ≠ 0x00C#13) →
      step (s.plan (.access a)) = .next t →
      ∃ u, step (t.plan (.access a)) = .next u ∧ u = { t with replies := u.replies }) ∧
    ∀ (s t : State) (off : Offset) (size : Nat), s.engine = .idle →
      step (s.plan (.access ⟨.read, off, size⟩)) = .next t → t = { s with replies := t.replies }

/-! The lifecycle (60_exceptions.md, 70_reset_and_hazards.md). -/

/-- R201, R202: a word written to CMD while IDLE is accepted if it is legal, and otherwise sets ERR.ILLEGAL and changes nothing else; while RUN it is never offered and sets ERR.BUSYACC alone (R66). -/
def Obligations.OfferedCommand : Prop :=
  ∀ (s : State) (w : Word),
    (s.engine = .idle → (∃ i, decode w = .ok i) →
      s.writeLeaves 0x00C#13 w { s with engine := .run w, done := false }) ∧
    (s.engine = .idle → (∃ e, decode w = .error e) →
      s.writeLeaves 0x00C#13 w { s with err := s.err ||| 1#32 }) ∧
    (∀ cur, s.engine = .run cur → s.writeLeaves 0x00C#13 w { s with err := s.err ||| 2#32 })

/-- R203: when the engine moves with PHASE = RUN, the step is the completion step of the command CUR decodes to. That the engine moves when nothing is scheduled is the model's reading of R244, not R203's (DEDUCED, notes/assumptions/2.md). -/
def Obligations.StepRunsTheDecodedCommand : Prop :=
  ∀ (s : State) (cur : Word) (i : Instr), s.engine = .run cur → decode cur = .ok i →
    (s.schedule = [] → step s = exec i s) ∧ step (s.plan .engine) = exec i s

/-- R203, R200: a completion leaves PHASE = IDLE, BUSY = 0, DONE = 1, so STATUS reads 2. -/
def Obligations.CompletionEndsTheCommand : Prop :=
  ∀ (i : Instr) (s t : State), exec i s = .next t →
    t.engine = .idle ∧ t.busy = false ∧ t.done = true ∧ t.status = 2#32

/-- The words placed by withFetchWord run as the very next step (notes/assumptions/13.md). -/
def Obligations.PlacedWordRunsNext : Prop :=
  ∀ (s : State) (w : Nat) (i : Instr), w < 2 ^ 32 → decodeTableWord 32 w = some i →
    step (s.withFetchWord 32 w) = exec i { s with engine := .run (BitVec.ofNat 32 w), done := false }

/-- R231, R200: with nothing scheduled an idle block stays as it is. -/
def Obligations.IdleBlockWaits : Prop :=
  ∀ s : State, s.engine = .idle → (s.schedule = [] → step s = .next s) ∧
    step (s.plan .engine) = .next s

/-- R37: the level of irq, from the words STATUS, ERR and CTRL read. -/
def Obligations.IrqLevel : Prop :=
  ∀ s : State, s.irq =
    ((s.status.getLsbD 1 && s.ctrl.getLsbD 0) ||
      ((s.err.getLsbD 0 || s.err.getLsbD 1 || s.err.getLsbD 2) && s.ctrl.getLsbD 1))

/-- R40: what reset leaves: every register 0, IDLE, no command, irq 0, no buffer word with a value, the constants as ever. -/
def Obligations.ResetValues : Prop :=
  State.reset.ctrl = 0#32 ∧ State.reset.status = 0#32 ∧ State.reset.done = false ∧
    State.reset.err = 0#32 ∧ State.reset.saLo = 0#32 ∧ State.reset.saHi = 0#32 ∧
    State.reset.sb = 0#32 ∧ State.reset.sr = 0#32 ∧ State.reset.engine = .idle ∧
    State.reset.irq = false ∧ (∀ b i, State.reset.readBufWord b i = none) ∧
    State.reset.readsAs 0x020#13 0x007FE001#32 ∧ State.reset.readsAs 0x024#13 0x03802001#32 ∧
    State.reset.readsAs 0x028#13 0xFFC01DFF#32

/-- R230: reset sets every piece of the block's state to its reset value whatever the engine was doing: no result is written, DONE stays 0, irq is 0, no buffer word keeps a value. That the model's own schedule and replies stay is its choice, not R230's (DESIGN CHOICE, notes/assumptions/21.md). -/
def Obligations.ResetAborts : Prop :=
  ∀ s : State, ∃ t, step (s.plan .reset) = .next t ∧
    t.ctrl = 0#32 ∧ t.status = 0#32 ∧ t.done = false ∧ t.err = 0#32 ∧ t.saLo = 0#32 ∧
    t.saHi = 0#32 ∧ t.sb = 0#32 ∧ t.sr = 0#32 ∧ t.engine = .idle ∧ t.irq = false ∧
    (∀ b i, t.readBufWord b i = none) ∧ t.schedule = s.schedule ∧ t.replies = s.replies

/-! Whole-machine rules. -/

/-- The invariant of the model (R26, R27, R28, R34, R62, R203): canonical buffers of whole words, reserved bits 0, a legal command in flight, never BUSY and DONE together; every step keeps it. -/
def Obligations.EveryStepKeepsTheInvariant : Prop :=
  ∀ s t : State, s.Inv → step s = .next t → t.Inv

/-- The state after reset meets the invariant. -/
def Obligations.ResetMeetsTheInvariant : Prop := State.reset.Inv

/-- R24: a step that changes SR is the completion of a scalar command, or reset. -/
def Obligations.OnlyScalarCompletionsWriteSr : Prop :=
  ∀ s t : State, step s = .next t → t.sr ≠ s.sr →
    (∃ i, s.completes i ∧ i.isScalar = true) ∨ s.resetNext

/-- R28, R205: an ERR bit is set only by its own event (an illegal word written to CMD while IDLE, an access to a protected offset while RUN, a completion whose input broke its precondition), and cleared only by a write of 1 to it or by reset, never by a command. -/
def Obligations.ErrorBitsAndTheirEvents : Prop :=
  ∀ s t : State, step s = .next t →
    (∀ k < 3, s.err.getLsbD k = true → t.err.getLsbD k = false →
      s.resetNext ∨ ∃ w, s.writesNext 0x008#13 w ∧ w.getLsbD k = true) ∧
    (s.illegal = false → t.illegal = true →
      s.engine = .idle ∧ ∃ w e, s.writesNext 0x00C#13 w ∧ decode w = .error e) ∧
    (s.busyacc = false → t.busyacc = true →
      (∃ cur, s.engine = .run cur) ∧ ∃ kind off rest,
        s.schedule = .access ⟨kind, off, 4⟩ :: rest ∧ protectedOffset off.toNat) ∧
    (s.pre = false → t.pre = true → ∃ i, s.completes i ∧ s.breaksPrecondition i)

/-- R27: DONE is set only by a completion, and cleared only by writing 1 to bit 1 of STATUS, by the acceptance of a command, or by reset. -/
def Obligations.DoneAndItsEvents : Prop :=
  ∀ s t : State, step s = .next t →
    (s.done = false → t.done = true → ∃ i, s.completes i) ∧
    (s.done = true → t.done = false →
      s.resetNext ∨ (∃ w, s.writesNext 0x004#13 w ∧ w.getLsbD 1 = true) ∨
        (s.engine = .idle ∧ ∃ w i, s.writesNext 0x00C#13 w ∧ decode w = .ok i))

/-- R200: PHASE leaves IDLE only by accepting a command, and leaves RUN only by completing it or by reset; BUSY = 1 exactly when PHASE = RUN. -/
def Obligations.PhaseChanges : Prop :=
  (∀ s : State, s.busy = true ↔ ∃ cur, s.engine = .run cur) ∧
  ∀ s t : State, step s = .next t →
    (∀ cur, s.engine = .idle → t.engine = .run cur →
      s.writesNext 0x00C#13 cur ∧ ∃ i, decode cur = .ok i) ∧
    (∀ cur, s.engine = .run cur → t.engine ≠ .run cur →
      t.engine = .idle ∧ ((∃ i, s.completes i) ∨ s.resetNext))

/-- R39, R66, R72 item 2: no host access changes an operand, a result, a buffer or the command while it runs, and none stops the block, so a command's operands at completion are those at acceptance. -/
def Obligations.OperandsHoldWhileBusy : Prop :=
  ∀ (s : State) (cur : Word) (a : Access), s.engine = .run cur →
    ∃ t, step (s.plan (.access a)) = .next t ∧ t.saLo = s.saLo ∧ t.saHi = s.saHi ∧
      t.sb = s.sb ∧ t.sr = s.sr ∧ t.mem = s.mem ∧ t.engine = s.engine

/-- R244, R72 item 2: an accepted command with its sources written completes, whatever accesses the host still makes and without any duty of the host's, when no reset is scheduled; and the operands and buffers it reads at its completion are those of s. That the engine moves when nothing is scheduled is the model's reading of R244 (DEDUCED, notes/assumptions/2.md). -/
def Obligations.AcceptedCommandCompletes : Prop :=
  ∀ (s : State) (cur : Word) (i : Instr), s.engine = .run cur → decode cur = .ok i →
    s.sourcesWritten i → Slot.reset ∉ s.schedule →
    ∃ k ≤ s.schedule.length, ∃ u t, run k s = .next u ∧ run (k + 1) s = .next t ∧
      u.engine = .run cur ∧ u.saLo = s.saLo ∧ u.saHi = s.saHi ∧ u.sb = s.sb ∧ u.mem = s.mem ∧
      exec i { u with schedule := t.schedule } = .next t ∧ t.engine = .idle ∧ t.done = true

/-- R71, D22: a write of 1 to DONE or to ERR.PRE in the cycle of a completion that sets it is ordered before the completion, so the bit ends 1. -/
def Obligations.SetWinsOverClear : Prop :=
  ∀ (s : State) (cur : Word) (i : Instr) (w : Word), s.engine = .run cur → decode cur = .ok i →
    s.sourcesWritten i →
    (∃ t, run 2 ((s.plan .engine).plan (.access ⟨.write w, 0x004#13, 4⟩)) = .next t ∧
      t.done = true) ∧
    (s.breaksPrecondition i →
      ∃ t, run 2 ((s.plan .engine).plan (.access ⟨.write w, 0x008#13, 4⟩)) = .next t ∧
        t.pre = true)

/-- R99: `LDA64 v` while IDLE puts the 64-bit signed value v into SA and changes nothing else. -/
def Obligations.Lda64LoadsSa : Prop :=
  ∀ (s : State) (v : Int), s.engine = .idle → -2 ^ 63 ≤ v → v < 2 ^ 63 →
    ∃ t, run 2 { s with schedule := lda64 v ++ s.schedule } = .next t ∧ t.saValue = v ∧
      t = { s with saLo := t.saLo, saHi := t.saHi, replies := t.replies }

/-- R99, R133: `TOMONT` while IDLE, and the engine's turn after it, leave in SR the Montgomery form of SA_LO, in (−q, q), with no PRE; `FROMMONT` leaves a value congruent to SA_LO·2^−32. -/
def Obligations.TomontAndFrommont : Prop :=
  ∀ s : State, s.engine = .idle →
    (∃ t, run 3 { s with schedule := tomont ++ .engine :: s.schedule } = .next t ∧
      congruent 8380417 t.sr.toInt (s.saLo.toInt * 2 ^ 32) ∧ -8380417 < t.sr.toInt ∧
      t.sr.toInt < 8380417 ∧ t.err = s.err ∧ t.done = true) ∧
    ∃ t, run 3 { s with schedule := frommont ++ .engine :: s.schedule } = .next t ∧
      congruent 8380417 (t.sr.toInt * 2 ^ 32) s.saLo.toInt ∧ t.err = s.err ∧ t.done = true
end

