-- ==== Sys2Proof/Laws/HostProgram.lean ====
section
/-! SUPPORT. Which words a host program reads before writing them, and that the clean-entry premise of R234 gives a command the words it needs; how a run takes its first step. -/

namespace Sys2Proof.Machine

@[simp] theorem run_zero (s : State) : run 0 s = .next s := rfl

/-- A run whose first step answers a next state goes on from there. -/
theorem run_succ {s t : State} (k : Nat) (h : step s = .next t) : run (k + 1) s = run k t := by
  have hc : core.step s = .next t := h
  simp only [run, Host.Core.run, hc]
  rfl

/-- A word read before any write of it is among those the accesses read first. -/
theorem mem_readsBeforeWriting {b : Buf} {j : Nat} (rest : List BufAccess)
    (pre : List BufAccess) (written : List (Buf × Nat))
    (hpre : BufAccess.write b j ∉ pre) (hw : (b, j) ∉ written) :
    (b, j) ∈ readsBeforeWriting (pre ++ .read b j :: rest) written := by
  induction pre generalizing written with
  | nil => simp [readsBeforeWriting, hw]
  | cons a pre ih =>
    obtain ⟨ha, hp⟩ := not_or.mp (mt List.mem_cons.mpr hpre)
    cases a with
    | read c k =>
      simp only [List.cons_append, readsBeforeWriting]
      split
      · exact ih written hp hw
      · exact List.mem_cons_of_mem _ (ih written hp hw)
    | write c k =>
      refine ih ((c, k) :: written) hp fun h => ?_
      rcases List.mem_cons.mp h with h | h
      · cases h
        exact ha rfl
      · exact hw h

/-- Index by index, a source word is read before anything writes it, if each index reads its sources first and writes no other index (R171). -/
theorem source_mem_readsBeforeWriting {acc : Nat → List BufAccess} {b : Buf} {j n : Nat}
    (hj : j < n) (hother : ∀ i, i ≠ j → BufAccess.write b j ∉ acc i)
    (hself : ∃ pre post, acc j = pre ++ .read b j :: post ∧ BufAccess.write b j ∉ pre) :
    (b, j) ∈ readsBeforeWriting ((List.range n).flatMap acc) [] := by
  obtain ⟨before, after, hr⟩ := List.append_of_mem (List.mem_range.mpr hj)
  obtain ⟨pre, post, ha, hp⟩ := hself
  have hnd : j ∉ before := fun h => by
    have := List.nodup_range (n := n)
    rw [hr] at this
    exact (List.nodup_append.mp this).2.2 j h j List.mem_cons_self rfl
  have := mem_readsBeforeWriting (b := b) (j := j) (post ++ after.flatMap acc)
    (before.flatMap acc ++ pre) [] (fun h => ?_) List.not_mem_nil
  · simpa [hr, ha] using this
  · rcases List.mem_append.mp h with h | h
    · obtain ⟨i, hi, h⟩ := List.mem_flatMap.mp h
      exact hother i (fun e => hnd (e ▸ hi)) h
    · exact hp h

/-- A command reads every word of its sources before writing it (R171). -/
theorem sources_readBeforeWriting (i : Instr) (s : State)
    (h : ∀ p ∈ readsBeforeWriting (bufferAccesses i) [], (s.readBufWord p.1 p.2).isSome = true) :
    s.sourcesWritten i := by
  have unary (rd rs1 : Buf)
      (h : ∀ p ∈ readsBeforeWriting (unaryAccesses rd rs1) [],
        (s.readBufWord p.1 p.2).isSome = true) : s.bufferWritten rs1 := fun j hj =>
    h (rs1, j) (source_mem_readsBeforeWriting hj (fun i hi => by simp [hi.symm])
      ⟨[], [.write rd j], rfl, List.not_mem_nil⟩)
  cases i with
  | vmmul rd rs1 rs2 =>
    exact ⟨fun j hj => h (rs1, j) (source_mem_readsBeforeWriting hj (fun i hi => by simp [hi.symm])
        ⟨[], [.read rs2 j, .write rd j], rfl, List.not_mem_nil⟩),
      fun j hj => h (rs2, j) (source_mem_readsBeforeWriting hj (fun i hi => by simp [hi.symm])
        ⟨[.read rs1 j], [.write rd j], rfl, by simp⟩)⟩
  | vred32 rd rs1 => exact unary rd rs1 h
  | vcaddq rd rs1 => exact unary rd rs1 h
  | vfreeze rd rs1 => exact unary rd rs1 h
  | mred => trivial
  | red32 => trivial
  | caddq => trivial
  | freeze => trivial
  | mmul => trivial

/-- A write to CMD is performed, and its buffer accesses are those of the command it offers. -/
theorem slotBufAccesses_cmd {w : Word} {i : Instr} (h : decode w = .ok i) :
    slotBufAccesses (.access ⟨.write w, offCmd, 4⟩) = bufferAccesses i := by
  have ht : targetOf 12 = .cmd := by decide
  simp [slotBufAccesses, isPerformed, ht, hostBufAccesses, h]

/-- Offering a legal word brings about the buffer accesses of its command. -/
theorem programReads_rawWord {w : Word} {i : Instr} (h : decode w = .ok i) :
    programReads (rawWord w) = readsBeforeWriting (bufferAccesses i) [] := by
  simp [programReads, rawWord, hostWr, slotBufAccesses_cmd h]

/-- Every word the program reads before writing it has a value at clean entry (R234). -/
theorem cleanEntry_readsWritten {s : State} {prog : List Slot} {v : EntryValues}
    (h : s.cleanEntry prog v) :
    ∀ p ∈ programReads prog, (s.readBufWord p.1 p.2).isSome = true := fun p hp => by
  obtain ⟨-, -, hnamed, hvals, -⟩ := h
  obtain ⟨w, hw⟩ := hnamed p hp
  rw [hvals _ hw]
  rfl

/-- At the clean entry of a program that offers one legal word, its command's sources are written. -/
theorem cleanEntry_sourcesWritten {s : State} {w : Word} {i : Instr} {v : EntryValues}
    (hd : decode w = .ok i) (h : s.cleanEntry (rawWord w) v) : s.sourcesWritten i :=
  sources_readBeforeWriting i s (programReads_rawWord hd ▸ cleanEntry_readsWritten h)

/-- "The reset state meets this premise except for buffer words" (R234). -/
theorem reset_cleanEntry {prog : List Slot} (h : programReads prog = []) :
    State.reset.cleanEntry prog ⟨0#32, 0#32, 0#32, 0#32, []⟩ :=
  ⟨rfl, rfl, by simp [h], by simp, rfl, rfl, rfl, rfl⟩

end Sys2Proof.Machine
end

