-- ==== Sys2Proof/Laws/Kernel.lean ====
section
/-! SUPPORT. What the readings s32, s64, u32 and the operands are, and the kernel functions' ranges as words. -/

namespace Sys2Proof.Machine

/-- s32 lands in [−2^31, 2^31). -/
theorem s32_range (x : Int) : -2147483648 ≤ s32 x ∧ s32 x < 2147483648 := by
  unfold s32; omega

/-- s32 keeps the residue mod 2^32. -/
theorem s32_congruent (x : Int) : (s32 x - x) % 4294967296 = 0 := by
  unfold s32; omega

/-- s32 is the identity on [−2^31, 2^31). -/
theorem s32_of_range {x : Int} (h1 : -2147483648 ≤ x) (h2 : x < 2147483648) : s32 x = x := by
  unfold s32; omega

/-- s64 lands in [−2^63, 2^63). -/
theorem s64_range (x : Int) :
    -9223372036854775808 ≤ s64 x ∧ s64 x < 9223372036854775808 := by
  unfold s64; omega

/-- s64 keeps the residue mod 2^64. -/
theorem s64_congruent (x : Int) : (s64 x - x) % 18446744073709551616 = 0 := by
  unfold s64; omega

/-- s64 is the identity on [−2^63, 2^63). -/
theorem s64_of_range {x : Int} (h1 : -9223372036854775808 ≤ x) (h2 : x < 9223372036854775808) :
    s64 x = x := by
  unfold s64; omega

/-- The word that stores x reads back as s32(x). -/
theorem toInt_u32 (x : Int) : (u32 x).toInt = s32 x := by
  rw [u32, BitVec.toInt_ofInt]
  unfold s32 Int.bmod
  simp only []
  norm_num
  omega

/-- The word that stores a value of [−2^31, 2^31) reads back as that value. -/
theorem toInt_u32_of_range {x : Int} (h1 : -2147483648 ≤ x) (h2 : x < 2147483648) :
    (u32 x).toInt = x := by
  rw [toInt_u32, s32_of_range h1 h2]

/-- A word's signed value lies in [−2^31, 2^31). -/
theorem toInt_range (w : Word) : -2147483648 ≤ w.toInt ∧ w.toInt < 2147483648 := by
  have h1 := BitVec.le_toInt w
  have h2 := BitVec.toInt_lt (x := w)
  norm_num at h1 h2
  exact ⟨h1, h2⟩

/-- u32 stores the value a word was read as. -/
theorem u32_toInt (w : Word) : u32 w.toInt = w := by
  simp [u32]

/-- SA's signed value lies in [−2^63, 2^63). -/
theorem sa64_range (s : State) :
    -9223372036854775808 ≤ s.sa64 ∧ s.sa64 < 9223372036854775808 := by
  have h1 := BitVec.le_toInt (s.saHi ++ s.saLo : BitVec 64)
  have h2 := BitVec.toInt_lt (x := (s.saHi ++ s.saLo : BitVec 64))
  norm_num at h1 h2
  exact ⟨h1, h2⟩

/-- SA as R23 writes it: the high half signed, the low half unsigned. -/
theorem sa64_eq (s : State) : s.sa64 = s.saHi.toInt * 4294967296 + s.saLo.toNat := by
  unfold State.sa64
  rw [BitVec.toInt_eq_toNat_bmod, BitVec.toInt_eq_toNat_bmod, BitVec.toNat_append]
  have h1 := s.saHi.isLt
  have h2 := s.saLo.isLt
  rw [← Nat.shiftLeft_add_eq_or_of_lt h2, Nat.shiftLeft_eq]
  simp only [Int.bmod]
  norm_num at *
  omega

/-- PreMRED as a proposition (R125). -/
theorem preMred_iff (a : Int) :
    preMred a = true ↔ -(8380417 * 2147483648) ≤ a ∧ a ≤ 8380417 * 2147483648 := by
  simp [preMred, Config.q]

/-- PreCADDQ as a proposition (R131). -/
theorem preCaddq_iff (a : Int) : preCaddq a = true ↔ -8380417 ≤ a ∧ a < 8380417 := by
  simp [preCaddq, Config.q]

/-- MRED_F answers a signed 32-bit value. -/
theorem mredF_range (a : Int) : -2147483648 ≤ mredF a ∧ mredF a < 2147483648 := s32_range _

/-- The word SR holds after MRED or MMUL reads as MRED_F's value. -/
theorem toInt_u32_mredF (a : Int) : (u32 (mredF a)).toInt = mredF a :=
  toInt_u32_of_range (mredF_range a).1 (mredF_range a).2

/-- The mask of CADDQ_F selects q for a negative value and 0 otherwise. -/
theorem caddqF_eq {a : Int} (h1 : -2147483648 ≤ a) (h2 : a < 2147483648) :
    caddqF a = if a < 0 then a + Config.q else a := by
  unfold caddqF
  by_cases h : a < 0
  · have : a / 2147483648 = -1 := by omega
    rw [this, if_pos h]
    congr 1
  · have : a / 2147483648 = 0 := by omega
    rw [this, if_neg h]
    have : (u32 0 &&& Config.constQ).toInt = 0 := by decide
    omega

/-- The elements of a list of products. -/
theorem getElem_zipWith_product (xs ys : List Int) (i : Nat)
    (h : i < (List.zipWith product xs ys).length) :
    (List.zipWith product xs ys)[i] =
      product (xs[i]'(by simp at h; omega)) (ys[i]'(by simp at h; omega)) := by
  simp

end Sys2Proof.Machine
end

