-- ==== Sys2Proof/Laws/Memory.lean ====
section
/-! SUPPORT. The buffers' memory: a read after a write, and that every operation keeps the canonical form. -/

namespace Sys2Proof.Machine

theorem readByte_cons (c : Host.Cell) (m : Memory) (a : Nat) :
    Memory.readByte (c :: m) a = if c.1 = a then some c.2 else Memory.readByte m a := rfl

theorem writeByte_cons (c : Host.Cell) (m : Memory) (a : Nat) (b : Byte) :
    Memory.writeByte (c :: m) a b =
      if a < c.1 then (a, b) :: c :: m
      else if c.1 = a then (a, b) :: m
      else c :: Memory.writeByte m a b := rfl

/-- A byte read back is the byte written; every other byte reads as before. -/
theorem readByte_writeByte (m : Memory) (a a' : Nat) (b : Byte) :
    (m.writeByte a b).readByte a' = if a = a' then some b else m.readByte a' := by
  induction m with
  | nil => rfl
  | cons c m ih =>
    rw [writeByte_cons]
    by_cases h1 : a < c.1
    · simp [h1, readByte_cons]
    · by_cases h2 : c.1 = a
      · by_cases h3 : a = a' <;> simp [h2, h3, readByte_cons]
      · by_cases h3 : a = a'
        · subst h3; simp [h1, h2, readByte_cons, ih]
        · simp [h1, h2, h3, readByte_cons, ih]

/-- The bytes of a written word, and that every other byte reads as before. -/
theorem readByte_writeWord (m : Memory) (a a' : Nat) (w : Word) :
    (m.writeWord a w).readByte a' =
      if a ≤ a' ∧ a' < a + 4 then some (wordByte w (a' - a)) else m.readByte a' := by
  simp only [Memory.writeWord, readByte_writeByte]
  by_cases h : a ≤ a' ∧ a' < a + 4
  · have : a' = a ∨ a' = a + 1 ∨ a' = a + 2 ∨ a' = a + 3 := by omega
    rcases this with rfl | rfl | rfl | rfl <;> simp
  · have : ¬a + 3 = a' ∧ ¬a + 2 = a' ∧ ¬a + 1 = a' ∧ ¬a = a' := by omega
    simp [h, this]

theorem wordOfBytes_wordByte (w : Word) :
    wordOfBytes (wordByte w 0) (wordByte w 1) (wordByte w 2) (wordByte w 3) = w := by
  apply BitVec.eq_of_getLsbD_eq
  intro i hi
  simp only [wordOfBytes, wordByte, BitVec.getLsbD_append, BitVec.getLsbD_extractLsb']
  have : i < 8 ∨ (8 ≤ i ∧ i < 16) ∨ (16 ≤ i ∧ i < 24) ∨ 24 ≤ i := by omega
  rcases this with h | h | h | h
  · simp [h]
  · have h1 : ¬i < 8 := by omega
    have h2 : i - 8 < 8 := by omega
    simp only [h1, h2, if_false, if_true, decide_true, Bool.true_and]
    congr 1; omega
  · have h1 : ¬i < 8 := by omega
    have h2 : ¬i - 8 < 8 := by omega
    have h3 : i - 8 - 8 < 8 := by omega
    simp only [h1, h2, h3, if_false, if_true, decide_true, Bool.true_and]
    congr 1; omega
  · have h1 : ¬i < 8 := by omega
    have h2 : ¬i - 8 < 8 := by omega
    have h3 : ¬i - 8 - 8 < 8 := by omega
    have h4 : i - 8 - 8 - 8 < 8 := by omega
    simp only [h1, h2, h3, h4, if_false, decide_true, Bool.true_and]
    congr 1; omega

/-- The word written is the word read back. -/
@[simp] theorem readWord_writeWord_same (m : Memory) (a : Nat) (w : Word) :
    (m.writeWord a w).readWord a = some w := by
  simp [Memory.readWord, readByte_writeWord, wordOfBytes_wordByte]

/-- A word has four bytes: what holds of every j < 4 holds of 0, 1, 2 and 3. -/
theorem forall_byte_iff {p : Nat → Prop} : (∀ j < 4, p j) ↔ p 0 ∧ p 1 ∧ p 2 ∧ p 3 := by
  constructor
  · exact fun h => ⟨h 0 (by decide), h 1 (by decide), h 2 (by decide), h 3 (by decide)⟩
  · rintro ⟨p0, p1, p2, p3⟩ j hj
    match j, hj with
    | 0, _ => exact p0
    | 1, _ => exact p1
    | 2, _ => exact p2
    | 3, _ => exact p3

/-- A word reads the same in two memories whose four bytes read the same. -/
theorem readWord_congr {m m' : Memory} {a : Nat}
    (h : ∀ j < 4, m.readByte (a + j) = m'.readByte (a + j)) : m.readWord a = m'.readWord a := by
  obtain ⟨e0, e1, e2, e3⟩ := forall_byte_iff.mp h
  rw [Nat.add_zero] at e0
  simp only [Memory.readWord, e0, e1, e2, e3]

/-- A word that shares no byte with the word written reads as before. -/
theorem readWord_writeWord_other (m : Memory) (a a' : Nat) (w : Word)
    (h : a + 4 ≤ a' ∨ a' + 4 ≤ a) : (m.writeWord a w).readWord a' = m.readWord a' := by
  apply readWord_congr
  intro j hj
  rw [readByte_writeWord, if_neg (by omega)]

/-- A word has a value exactly when its four bytes are listed. -/
theorem readWord_isSome (m : Memory) (a : Nat) :
    (m.readWord a).isSome = true ↔ ∀ j < 4, (m.readByte (a + j)).isSome = true := by
  rw [forall_byte_iff, Nat.add_zero]
  unfold Memory.readWord
  rcases m.readByte a <;> rcases m.readByte (a + 1) <;> rcases m.readByte (a + 2) <;>
    rcases m.readByte (a + 3) <;> simp

/-- The words read are as many as asked for, and each is the word at its offset. -/
theorem readWords_spec (m : Memory) (a k : Nat) (ws : List Word) :
    m.readWords a k = some ws ↔
      ws.length = k ∧ ∀ i, (h : i < ws.length) → m.readWord (a + 4 * i) = some ws[i] := by
  induction k generalizing a ws with
  | zero =>
    constructor
    · intro h
      obtain rfl : [] = ws := by simpa [Memory.readWords] using h
      simp
    · rintro ⟨h, -⟩
      obtain rfl := List.eq_nil_of_length_eq_zero h
      rfl
  | succ k ih =>
    constructor
    · intro h
      simp only [Memory.readWords] at h
      split at h
      · rename_i w ws' hw hws
        obtain rfl : w :: ws' = ws := by simpa using h
        obtain ⟨hl, hi⟩ := (ih _ _).mp hws
        refine ⟨by simp [hl], ?_⟩
        intro i h'
        cases i with
        | zero => simpa using hw
        | succ i =>
          have := hi i (by simpa using h')
          rw [show a + 4 * (i + 1) = a + 4 + 4 * i by omega]
          simpa using this
      · cases h
    · rintro ⟨hl, hi⟩
      cases ws with
      | nil => simp at hl
      | cons w ws' =>
        have h0 := hi 0 (by simp)
        simp only [Nat.mul_zero, Nat.add_zero, List.getElem_cons_zero] at h0
        have hs : m.readWords (a + 4) k = some ws' := by
          refine (ih _ _).mpr ⟨by simpa using hl, ?_⟩
          intro i h'
          have := hi (i + 1) (by simpa using h')
          rw [show a + 4 * (i + 1) = a + 4 + 4 * i by omega] at this
          simpa using this
        simp [Memory.readWords, h0, hs]

/-- A run of words can be read exactly when each of its words has a value. -/
theorem readWords_isSome (m : Memory) (a k : Nat) :
    (m.readWords a k).isSome = true ↔ ∀ i < k, (m.readWord (a + 4 * i)).isSome = true := by
  induction k generalizing a with
  | zero => simp [Memory.readWords]
  | succ k ih =>
    have step : (m.readWords a (k + 1)).isSome = true ↔
        (m.readWord a).isSome = true ∧ (m.readWords (a + 4) k).isSome = true := by
      simp only [Memory.readWords]
      rcases m.readWord a with _ | w <;> rcases m.readWords (a + 4) k with _ | ws <;> simp
    rw [step, ih]
    constructor
    · rintro ⟨h0, h⟩ i hi
      cases i with
      | zero => simpa using h0
      | succ i =>
        rw [show a + 4 * (i + 1) = a + 4 + 4 * i by omega]
        exact h i (by omega)
    · intro h
      refine ⟨by simpa using h 0 (by omega), ?_⟩
      intro i hi
      rw [show a + 4 + 4 * i = a + 4 * (i + 1) by omega]
      exact h (i + 1) (by omega)

/-- A byte outside a run of written words reads as before. -/
theorem readByte_writeWords_outside (ws : List Word) (m : Memory) (a a' : Nat)
    (h : ¬(a ≤ a' ∧ a' < a + 4 * ws.length)) :
    (m.writeWords a ws).readByte a' = m.readByte a' := by
  induction ws generalizing m a with
  | nil => rfl
  | cons w ws ih =>
    simp only [List.length_cons] at h
    rw [Memory.writeWords, ih _ _ (by omega), readByte_writeWord, if_neg (by omega)]

/-- Each word of a written run is read back. -/
theorem readWord_writeWords (ws : List Word) (m : Memory) (a i : Nat) (h : i < ws.length) :
    (m.writeWords a ws).readWord (a + 4 * i) = some ws[i] := by
  induction ws generalizing m a i with
  | nil => simp at h
  | cons w ws ih =>
    cases i with
    | zero =>
      have : (Memory.writeWords (m.writeWord a w) (a + 4) ws).readWord a
          = (m.writeWord a w).readWord a := by
        apply readWord_congr
        intro j hj
        rw [readByte_writeWords_outside _ _ _ _ (by omega)]
      simpa [Memory.writeWords] using this
    | succ i =>
      rw [show a + 4 * (i + 1) = a + 4 + 4 * i by omega]
      simpa [Memory.writeWords] using ih (m.writeWord a w) (a + 4) i (by simpa using h)

/-! The canonical form is kept. -/

theorem mem_writeByte {m : Memory} {a : Nat} {b : Byte} {c : Host.Cell}
    (h : c ∈ m.writeByte a b) : c = (a, b) ∨ c ∈ m := by
  induction m with
  | nil => simpa [Memory.writeByte] using h
  | cons d m ih =>
    rw [writeByte_cons] at h
    split at h
    · simpa using h
    · split at h
      · rcases List.mem_cons.mp h with h | h
        · exact .inl h
        · exact .inr (List.mem_cons_of_mem _ h)
      · rcases List.mem_cons.mp h with h | h
        · exact .inr (by simp [h])
        · rcases ih h with h | h
          · exact .inl h
          · exact .inr (List.mem_cons_of_mem _ h)

/-- Writing a byte keeps the offsets strictly rising. -/
theorem writeByte_sorted {m : Memory} (h : m.sorted) (a : Nat) (b : Byte) :
    (m.writeByte a b).sorted := by
  induction m with
  | nil => simp [Memory.writeByte, Memory.sorted]
  | cons d m ih =>
    obtain ⟨hd, hm⟩ := List.pairwise_cons.mp h
    rw [writeByte_cons]
    split
    · rename_i hlt
      refine List.pairwise_cons.mpr ⟨?_, h⟩
      intro c hc
      rcases List.mem_cons.mp hc with rfl | hc
      · exact hlt
      · exact Nat.lt_trans hlt (hd c hc)
    · split
      · rename_i heq
        exact List.pairwise_cons.mpr ⟨fun c hc => by simpa [← heq] using hd c hc, hm⟩
      · refine List.pairwise_cons.mpr ⟨?_, ih hm⟩
        intro c hc
        rcases mem_writeByte hc with rfl | hc
        · show d.1 < a; omega
        · exact hd c hc

theorem writeWord_sorted {m : Memory} (h : m.sorted) (a : Nat) (w : Word) :
    (m.writeWord a w).sorted :=
  writeByte_sorted (writeByte_sorted (writeByte_sorted (writeByte_sorted h _ _) _ _) _ _) _ _

/-- A listed cell of a memory after a word is written lies in the word or was listed before. -/
theorem mem_writeWord {m : Memory} {a : Nat} {w : Word} {c : Host.Cell}
    (h : c ∈ m.writeWord a w) : (a ≤ c.1 ∧ c.1 < a + 4) ∨ c ∈ m := by
  rcases mem_writeByte h with rfl | h
  · exact .inl (by simp)
  rcases mem_writeByte h with rfl | h
  · exact .inl (by simp)
  rcases mem_writeByte h with rfl | h
  · exact .inl (by simp)
  rcases mem_writeByte h with rfl | h
  · exact .inl (by simp)
  exact .inr h

/-- Writing an aligned word of the buffers keeps the canonical form. -/
theorem writeWord_wf {m : Memory} (h : m.wf) {a : Nat} (w : Word) (h4 : a % 4 = 0)
    (hlo : 0x400 ≤ a) (hhi : a < 0x1400) : (m.writeWord a w).wf := by
  obtain ⟨hs, hb, hw⟩ := h
  refine ⟨writeWord_sorted hs a w, ?_, ?_⟩
  · intro c hc
    rcases mem_writeWord hc with h | h
    · omega
    · exact hb c h
  · intro c hc j hj
    rw [readByte_writeWord]
    split
    · rfl
    · rcases mem_writeWord hc with h | h
      · omega
      · exact hw c h j hj

/-- Writing a run of words inside the buffers keeps the canonical form. -/
theorem writeWords_wf (ws : List Word) {m : Memory} (h : m.wf) {a : Nat} (h4 : a % 4 = 0)
    (hlo : 0x400 ≤ a) (hhi : a + 4 * ws.length ≤ 0x1400) : (m.writeWords a ws).wf := by
  induction ws generalizing m a with
  | nil => exact h
  | cons w ws ih =>
    simp only [List.length_cons] at hhi
    exact ih (writeWord_wf h w h4 hlo (by omega)) (by omega) (by omega) (by omega)

/-- The memory after reset has the canonical form. -/
theorem reset_mem_wf : State.reset.mem.wf := by decide

/-! Buffers (R34). -/

theorem bufIndex_lt (b : Buf) : bufIndex b < 4 := by cases b <;> decide

theorem bufOfIndex_bufIndex (b : Buf) : bufOfIndex (bufIndex b) = b := by cases b <;> rfl

theorem bufIndex_bufOfIndex (k : Nat) : bufIndex (bufOfIndex k) = k % 4 := by
  have h : k % 4 < 4 := Nat.mod_lt _ (by omega)
  unfold bufOfIndex
  split
  · next h0 => rw [h0]; rfl
  · split
    · next h1 => rw [h1]; rfl
    · split
      · next h2 => rw [h2]; rfl
      · have : k % 4 = 3 := by omega
        rw [this]; rfl

theorem bufOffset_eq (b : Buf) (i : Nat) : bufOffset b i = bufOffset b 0 + 4 * i := by
  simp [bufOffset]

/-- Every word of a buffer is aligned and inside the buffers' part of the window. -/
theorem bufOffset_bounds (b : Buf) {i : Nat} (h : i < 256) :
    bufOffset b i % 4 = 0 ∧ 0x400 ≤ bufOffset b i ∧ bufOffset b i < 0x1400 := by
  have := bufIndex_lt b
  unfold bufOffset
  omega

/-- Two different words of the buffers share no byte. -/
theorem bufOffset_disjoint {b b' : Buf} {i i' : Nat} (hi : i < 256) (hi' : i' < 256)
    (h : b ≠ b' ∨ i ≠ i') :
    bufOffset b i + 4 ≤ bufOffset b' i' ∨ bufOffset b' i' + 4 ≤ bufOffset b i := by
  cases b <;> cases b' <;> simp [bufOffset, bufIndex] at h ⊢ <;> omega

/-- A word written to a buffer is read back. -/
@[simp] theorem readBufWord_writeBufWord_same (s : State) (b : Buf) (i : Nat) (w : Word) :
    (s.writeBufWord b i w).readBufWord b i = some w := by
  simp [State.readBufWord, State.writeBufWord]

/-- Every other buffer word reads as before. -/
theorem readBufWord_writeBufWord_other (s : State) {b b' : Buf} {i i' : Nat} (w : Word)
    (hi : i < 256) (hi' : i' < 256) (h : b ≠ b' ∨ i ≠ i') :
    (s.writeBufWord b i w).readBufWord b' i' = s.readBufWord b' i' :=
  readWord_writeWord_other _ _ _ _ (bufOffset_disjoint hi hi' h)

/-- A buffer's words, when all have a value. -/
theorem readBuffer_spec (s : State) (b : Buf) (ws : List Word) :
    s.readBuffer b = some ws ↔
      ws.length = 256 ∧ ∀ i, (h : i < ws.length) → s.readBufWord b i = some ws[i] := by
  simp only [State.readBuffer, State.readBufWord, readWords_spec]
  constructor <;> rintro ⟨h1, h2⟩ <;> refine ⟨h1, fun i h => ?_⟩
  · rw [bufOffset_eq]; exact h2 i h
  · rw [← bufOffset_eq]; exact h2 i h

/-- A buffer can be read exactly when each of its words has a value. -/
theorem readBuffer_isSome (s : State) (b : Buf) :
    (s.readBuffer b).isSome = true ↔ ∀ i < 256, (s.readBufWord b i).isSome = true := by
  simp only [State.readBuffer, State.readBufWord, readWords_isSome]
  constructor <;> intro h i hi
  · rw [bufOffset_eq]; exact h i hi
  · rw [← bufOffset_eq]; exact h i hi

/-- Each word written by writeBuffer is read back. -/
theorem readBufWord_writeBuffer (s : State) (b : Buf) (ws : List Word) (i : Nat)
    (h : i < ws.length) : (s.writeBuffer b ws).readBufWord b i = some ws[i] := by
  rw [State.readBufWord, bufOffset_eq]
  exact readWord_writeWords ws s.mem _ i h

/-- writeBuffer leaves every byte outside its words as it was. -/
theorem readByte_writeBuffer_outside (s : State) (b : Buf) (ws : List Word) (a : Nat)
    (h : ¬(bufOffset b 0 ≤ a ∧ a < bufOffset b 0 + 4 * ws.length)) :
    (s.writeBuffer b ws).mem.readByte a = s.mem.readByte a :=
  readByte_writeWords_outside ws s.mem _ a h

/-- writeBuffer leaves the words of every other buffer as they were. -/
theorem readBufWord_writeBuffer_other (s : State) {b b' : Buf} (ws : List Word) {i : Nat}
    (hb : b ≠ b') (hl : ws.length ≤ 256) (hi : i < 256) :
    (s.writeBuffer b ws).readBufWord b' i = s.readBufWord b' i := by
  have hd : bufOffset b 0 + 1024 ≤ bufOffset b' i ∨ bufOffset b' i + 4 ≤ bufOffset b 0 := by
    cases b <;> cases b' <;> simp [bufOffset, bufIndex] at hb ⊢ <;> omega
  apply readWord_congr
  intro j hj
  exact readByte_writeBuffer_outside s b ws _ (by omega)

/-- Writing 256 words or fewer to a buffer keeps the canonical form. -/
theorem writeBuffer_wf {s : State} (h : s.mem.wf) (b : Buf) (ws : List Word)
    (hl : ws.length ≤ 256) : (s.writeBuffer b ws).mem.wf := by
  have h0 := bufIndex_lt b
  have h1 : bufOffset b 0 = 0x400 + 0x400 * bufIndex b := rfl
  have := bufOffset_bounds b (i := 0) (by omega)
  exact writeWords_wf ws h this.1 this.2.1 (by omega)

/-- Writing one buffer word keeps the canonical form. -/
theorem writeBufWord_wf {s : State} (h : s.mem.wf) (b : Buf) {i : Nat} (hi : i < 256) (w : Word) :
    (s.writeBufWord b i w).mem.wf := by
  have := bufOffset_bounds b hi
  exact writeWord_wf h w this.1 this.2.1 this.2.2

end Sys2Proof.Machine
end

