-- ==== Sys2Proof/Laws/State.lean ====
section
/-! SUPPORT. One lemma per field per update of State, so that no proof unfolds an update. -/

namespace Sys2Proof.Machine

section Updates
variable (s : State)

/-! setErr -/

@[simp] theorem setErr_ctrl (bits : Word) :
    (s.setErr bits).ctrl = s.ctrl := rfl
@[simp] theorem setErr_done (bits : Word) :
    (s.setErr bits).done = s.done := rfl
@[simp] theorem setErr_err (bits : Word) :
    (s.setErr bits).err = s.err ||| bits := rfl
@[simp] theorem setErr_saLo (bits : Word) :
    (s.setErr bits).saLo = s.saLo := rfl
@[simp] theorem setErr_saHi (bits : Word) :
    (s.setErr bits).saHi = s.saHi := rfl
@[simp] theorem setErr_sb (bits : Word) :
    (s.setErr bits).sb = s.sb := rfl
@[simp] theorem setErr_sr (bits : Word) :
    (s.setErr bits).sr = s.sr := rfl
@[simp] theorem setErr_mem (bits : Word) :
    (s.setErr bits).mem = s.mem := rfl
@[simp] theorem setErr_engine (bits : Word) :
    (s.setErr bits).engine = s.engine := rfl
@[simp] theorem setErr_schedule (bits : Word) :
    (s.setErr bits).schedule = s.schedule := rfl
@[simp] theorem setErr_replies (bits : Word) :
    (s.setErr bits).replies = s.replies := rfl

/-! flagPre -/

@[simp] theorem flagPre_ctrl (broken : Bool) :
    (s.flagPre broken).ctrl = s.ctrl := rfl
@[simp] theorem flagPre_done (broken : Bool) :
    (s.flagPre broken).done = s.done := rfl
@[simp] theorem flagPre_err (broken : Bool) :
    (s.flagPre broken).err = (if broken then s.err ||| 4#32 else s.err) := rfl
@[simp] theorem flagPre_saLo (broken : Bool) :
    (s.flagPre broken).saLo = s.saLo := rfl
@[simp] theorem flagPre_saHi (broken : Bool) :
    (s.flagPre broken).saHi = s.saHi := rfl
@[simp] theorem flagPre_sb (broken : Bool) :
    (s.flagPre broken).sb = s.sb := rfl
@[simp] theorem flagPre_sr (broken : Bool) :
    (s.flagPre broken).sr = s.sr := rfl
@[simp] theorem flagPre_mem (broken : Bool) :
    (s.flagPre broken).mem = s.mem := rfl
@[simp] theorem flagPre_engine (broken : Bool) :
    (s.flagPre broken).engine = s.engine := rfl
@[simp] theorem flagPre_schedule (broken : Bool) :
    (s.flagPre broken).schedule = s.schedule := rfl
@[simp] theorem flagPre_replies (broken : Bool) :
    (s.flagPre broken).replies = s.replies := rfl

/-! writeCtrl -/

@[simp] theorem writeCtrl_ctrl (w : Word) :
    (s.writeCtrl w).ctrl = w &&& 3#32 := rfl
@[simp] theorem writeCtrl_done (w : Word) :
    (s.writeCtrl w).done = s.done := rfl
@[simp] theorem writeCtrl_err (w : Word) :
    (s.writeCtrl w).err = s.err := rfl
@[simp] theorem writeCtrl_saLo (w : Word) :
    (s.writeCtrl w).saLo = s.saLo := rfl
@[simp] theorem writeCtrl_saHi (w : Word) :
    (s.writeCtrl w).saHi = s.saHi := rfl
@[simp] theorem writeCtrl_sb (w : Word) :
    (s.writeCtrl w).sb = s.sb := rfl
@[simp] theorem writeCtrl_sr (w : Word) :
    (s.writeCtrl w).sr = s.sr := rfl
@[simp] theorem writeCtrl_mem (w : Word) :
    (s.writeCtrl w).mem = s.mem := rfl
@[simp] theorem writeCtrl_engine (w : Word) :
    (s.writeCtrl w).engine = s.engine := rfl
@[simp] theorem writeCtrl_schedule (w : Word) :
    (s.writeCtrl w).schedule = s.schedule := rfl
@[simp] theorem writeCtrl_replies (w : Word) :
    (s.writeCtrl w).replies = s.replies := rfl

/-! writeStatus -/

@[simp] theorem writeStatus_ctrl (w : Word) :
    (s.writeStatus w).ctrl = s.ctrl := rfl
@[simp] theorem writeStatus_done (w : Word) :
    (s.writeStatus w).done = (s.done && !w.getLsbD 1) := rfl
@[simp] theorem writeStatus_err (w : Word) :
    (s.writeStatus w).err = s.err := rfl
@[simp] theorem writeStatus_saLo (w : Word) :
    (s.writeStatus w).saLo = s.saLo := rfl
@[simp] theorem writeStatus_saHi (w : Word) :
    (s.writeStatus w).saHi = s.saHi := rfl
@[simp] theorem writeStatus_sb (w : Word) :
    (s.writeStatus w).sb = s.sb := rfl
@[simp] theorem writeStatus_sr (w : Word) :
    (s.writeStatus w).sr = s.sr := rfl
@[simp] theorem writeStatus_mem (w : Word) :
    (s.writeStatus w).mem = s.mem := rfl
@[simp] theorem writeStatus_engine (w : Word) :
    (s.writeStatus w).engine = s.engine := rfl
@[simp] theorem writeStatus_schedule (w : Word) :
    (s.writeStatus w).schedule = s.schedule := rfl
@[simp] theorem writeStatus_replies (w : Word) :
    (s.writeStatus w).replies = s.replies := rfl

/-! writeErr -/

@[simp] theorem writeErr_ctrl (w : Word) :
    (s.writeErr w).ctrl = s.ctrl := rfl
@[simp] theorem writeErr_done (w : Word) :
    (s.writeErr w).done = s.done := rfl
@[simp] theorem writeErr_err (w : Word) :
    (s.writeErr w).err = s.err &&& ~~~(w &&& 7#32) := rfl
@[simp] theorem writeErr_saLo (w : Word) :
    (s.writeErr w).saLo = s.saLo := rfl
@[simp] theorem writeErr_saHi (w : Word) :
    (s.writeErr w).saHi = s.saHi := rfl
@[simp] theorem writeErr_sb (w : Word) :
    (s.writeErr w).sb = s.sb := rfl
@[simp] theorem writeErr_sr (w : Word) :
    (s.writeErr w).sr = s.sr := rfl
@[simp] theorem writeErr_mem (w : Word) :
    (s.writeErr w).mem = s.mem := rfl
@[simp] theorem writeErr_engine (w : Word) :
    (s.writeErr w).engine = s.engine := rfl
@[simp] theorem writeErr_schedule (w : Word) :
    (s.writeErr w).schedule = s.schedule := rfl
@[simp] theorem writeErr_replies (w : Word) :
    (s.writeErr w).replies = s.replies := rfl

/-! writeBufWord -/

@[simp] theorem writeBufWord_ctrl (b : Buf) (i : Nat) (w : Word) :
    (s.writeBufWord b i w).ctrl = s.ctrl := rfl
@[simp] theorem writeBufWord_done (b : Buf) (i : Nat) (w : Word) :
    (s.writeBufWord b i w).done = s.done := rfl
@[simp] theorem writeBufWord_err (b : Buf) (i : Nat) (w : Word) :
    (s.writeBufWord b i w).err = s.err := rfl
@[simp] theorem writeBufWord_saLo (b : Buf) (i : Nat) (w : Word) :
    (s.writeBufWord b i w).saLo = s.saLo := rfl
@[simp] theorem writeBufWord_saHi (b : Buf) (i : Nat) (w : Word) :
    (s.writeBufWord b i w).saHi = s.saHi := rfl
@[simp] theorem writeBufWord_sb (b : Buf) (i : Nat) (w : Word) :
    (s.writeBufWord b i w).sb = s.sb := rfl
@[simp] theorem writeBufWord_sr (b : Buf) (i : Nat) (w : Word) :
    (s.writeBufWord b i w).sr = s.sr := rfl
@[simp] theorem writeBufWord_mem (b : Buf) (i : Nat) (w : Word) :
    (s.writeBufWord b i w).mem = s.mem.writeWord (bufOffset b i) w := rfl
@[simp] theorem writeBufWord_engine (b : Buf) (i : Nat) (w : Word) :
    (s.writeBufWord b i w).engine = s.engine := rfl
@[simp] theorem writeBufWord_schedule (b : Buf) (i : Nat) (w : Word) :
    (s.writeBufWord b i w).schedule = s.schedule := rfl
@[simp] theorem writeBufWord_replies (b : Buf) (i : Nat) (w : Word) :
    (s.writeBufWord b i w).replies = s.replies := rfl

/-! writeBuffer -/

@[simp] theorem writeBuffer_ctrl (b : Buf) (ws : List Word) :
    (s.writeBuffer b ws).ctrl = s.ctrl := rfl
@[simp] theorem writeBuffer_done (b : Buf) (ws : List Word) :
    (s.writeBuffer b ws).done = s.done := rfl
@[simp] theorem writeBuffer_err (b : Buf) (ws : List Word) :
    (s.writeBuffer b ws).err = s.err := rfl
@[simp] theorem writeBuffer_saLo (b : Buf) (ws : List Word) :
    (s.writeBuffer b ws).saLo = s.saLo := rfl
@[simp] theorem writeBuffer_saHi (b : Buf) (ws : List Word) :
    (s.writeBuffer b ws).saHi = s.saHi := rfl
@[simp] theorem writeBuffer_sb (b : Buf) (ws : List Word) :
    (s.writeBuffer b ws).sb = s.sb := rfl
@[simp] theorem writeBuffer_sr (b : Buf) (ws : List Word) :
    (s.writeBuffer b ws).sr = s.sr := rfl
@[simp] theorem writeBuffer_mem (b : Buf) (ws : List Word) :
    (s.writeBuffer b ws).mem = s.mem.writeWords (bufOffset b 0) ws := rfl
@[simp] theorem writeBuffer_engine (b : Buf) (ws : List Word) :
    (s.writeBuffer b ws).engine = s.engine := rfl
@[simp] theorem writeBuffer_schedule (b : Buf) (ws : List Word) :
    (s.writeBuffer b ws).schedule = s.schedule := rfl
@[simp] theorem writeBuffer_replies (b : Buf) (ws : List Word) :
    (s.writeBuffer b ws).replies = s.replies := rfl

/-! writeSr -/

@[simp] theorem writeSr_ctrl (w : Word) :
    (s.writeSr w).ctrl = s.ctrl := rfl
@[simp] theorem writeSr_done (w : Word) :
    (s.writeSr w).done = s.done := rfl
@[simp] theorem writeSr_err (w : Word) :
    (s.writeSr w).err = s.err := rfl
@[simp] theorem writeSr_saLo (w : Word) :
    (s.writeSr w).saLo = s.saLo := rfl
@[simp] theorem writeSr_saHi (w : Word) :
    (s.writeSr w).saHi = s.saHi := rfl
@[simp] theorem writeSr_sb (w : Word) :
    (s.writeSr w).sb = s.sb := rfl
@[simp] theorem writeSr_sr (w : Word) :
    (s.writeSr w).sr = w := rfl
@[simp] theorem writeSr_mem (w : Word) :
    (s.writeSr w).mem = s.mem := rfl
@[simp] theorem writeSr_engine (w : Word) :
    (s.writeSr w).engine = s.engine := rfl
@[simp] theorem writeSr_schedule (w : Word) :
    (s.writeSr w).schedule = s.schedule := rfl
@[simp] theorem writeSr_replies (w : Word) :
    (s.writeSr w).replies = s.replies := rfl

/-! answer -/

@[simp] theorem answer_ctrl (r : Reply) :
    (s.answer r).ctrl = s.ctrl := rfl
@[simp] theorem answer_done (r : Reply) :
    (s.answer r).done = s.done := rfl
@[simp] theorem answer_err (r : Reply) :
    (s.answer r).err = s.err := rfl
@[simp] theorem answer_saLo (r : Reply) :
    (s.answer r).saLo = s.saLo := rfl
@[simp] theorem answer_saHi (r : Reply) :
    (s.answer r).saHi = s.saHi := rfl
@[simp] theorem answer_sb (r : Reply) :
    (s.answer r).sb = s.sb := rfl
@[simp] theorem answer_sr (r : Reply) :
    (s.answer r).sr = s.sr := rfl
@[simp] theorem answer_mem (r : Reply) :
    (s.answer r).mem = s.mem := rfl
@[simp] theorem answer_engine (r : Reply) :
    (s.answer r).engine = s.engine := rfl
@[simp] theorem answer_schedule (r : Reply) :
    (s.answer r).schedule = s.schedule := rfl
@[simp] theorem answer_replies (r : Reply) :
    (s.answer r).replies = r :: s.replies := rfl

/-! raiseIllegal -/

@[simp] theorem raiseIllegal_ctrl :
    (s.raiseIllegal).ctrl = s.ctrl := rfl
@[simp] theorem raiseIllegal_done :
    (s.raiseIllegal).done = s.done := rfl
@[simp] theorem raiseIllegal_err :
    (s.raiseIllegal).err = s.err ||| 1#32 := rfl
@[simp] theorem raiseIllegal_saLo :
    (s.raiseIllegal).saLo = s.saLo := rfl
@[simp] theorem raiseIllegal_saHi :
    (s.raiseIllegal).saHi = s.saHi := rfl
@[simp] theorem raiseIllegal_sb :
    (s.raiseIllegal).sb = s.sb := rfl
@[simp] theorem raiseIllegal_sr :
    (s.raiseIllegal).sr = s.sr := rfl
@[simp] theorem raiseIllegal_mem :
    (s.raiseIllegal).mem = s.mem := rfl
@[simp] theorem raiseIllegal_engine :
    (s.raiseIllegal).engine = s.engine := rfl
@[simp] theorem raiseIllegal_schedule :
    (s.raiseIllegal).schedule = s.schedule := rfl
@[simp] theorem raiseIllegal_replies :
    (s.raiseIllegal).replies = s.replies := rfl

/-! raiseBusyAccess -/

@[simp] theorem raiseBusyAccess_ctrl (k : AccessKind) :
    (s.raiseBusyAccess k).ctrl = s.ctrl := rfl
@[simp] theorem raiseBusyAccess_done (k : AccessKind) :
    (s.raiseBusyAccess k).done = s.done := rfl
@[simp] theorem raiseBusyAccess_err (k : AccessKind) :
    (s.raiseBusyAccess k).err = s.err ||| 2#32 := rfl
@[simp] theorem raiseBusyAccess_saLo (k : AccessKind) :
    (s.raiseBusyAccess k).saLo = s.saLo := rfl
@[simp] theorem raiseBusyAccess_saHi (k : AccessKind) :
    (s.raiseBusyAccess k).saHi = s.saHi := rfl
@[simp] theorem raiseBusyAccess_sb (k : AccessKind) :
    (s.raiseBusyAccess k).sb = s.sb := rfl
@[simp] theorem raiseBusyAccess_sr (k : AccessKind) :
    (s.raiseBusyAccess k).sr = s.sr := rfl
@[simp] theorem raiseBusyAccess_mem (k : AccessKind) :
    (s.raiseBusyAccess k).mem = s.mem := rfl
@[simp] theorem raiseBusyAccess_engine (k : AccessKind) :
    (s.raiseBusyAccess k).engine = s.engine := rfl
@[simp] theorem raiseBusyAccess_schedule (k : AccessKind) :
    (s.raiseBusyAccess k).schedule = s.schedule := rfl
@[simp] theorem raiseBusyAccess_replies (k : AccessKind) :
    (s.raiseBusyAccess k).replies = busyReply k :: s.replies := rfl

/-! raiseBusError -/

@[simp] theorem raiseBusError_ctrl :
    (s.raiseBusError).ctrl = s.ctrl := rfl
@[simp] theorem raiseBusError_done :
    (s.raiseBusError).done = s.done := rfl
@[simp] theorem raiseBusError_err :
    (s.raiseBusError).err = s.err := rfl
@[simp] theorem raiseBusError_saLo :
    (s.raiseBusError).saLo = s.saLo := rfl
@[simp] theorem raiseBusError_saHi :
    (s.raiseBusError).saHi = s.saHi := rfl
@[simp] theorem raiseBusError_sb :
    (s.raiseBusError).sb = s.sb := rfl
@[simp] theorem raiseBusError_sr :
    (s.raiseBusError).sr = s.sr := rfl
@[simp] theorem raiseBusError_mem :
    (s.raiseBusError).mem = s.mem := rfl
@[simp] theorem raiseBusError_engine :
    (s.raiseBusError).engine = s.engine := rfl
@[simp] theorem raiseBusError_schedule :
    (s.raiseBusError).schedule = s.schedule := rfl
@[simp] theorem raiseBusError_replies :
    (s.raiseBusError).replies = .error :: s.replies := rfl

/-! accept -/

@[simp] theorem accept_ctrl (w : Word) :
    (s.accept w).ctrl = s.ctrl := rfl
@[simp] theorem accept_done (w : Word) :
    (s.accept w).done = false := rfl
@[simp] theorem accept_err (w : Word) :
    (s.accept w).err = s.err := rfl
@[simp] theorem accept_saLo (w : Word) :
    (s.accept w).saLo = s.saLo := rfl
@[simp] theorem accept_saHi (w : Word) :
    (s.accept w).saHi = s.saHi := rfl
@[simp] theorem accept_sb (w : Word) :
    (s.accept w).sb = s.sb := rfl
@[simp] theorem accept_sr (w : Word) :
    (s.accept w).sr = s.sr := rfl
@[simp] theorem accept_mem (w : Word) :
    (s.accept w).mem = s.mem := rfl
@[simp] theorem accept_engine (w : Word) :
    (s.accept w).engine = .run w := rfl
@[simp] theorem accept_schedule (w : Word) :
    (s.accept w).schedule = s.schedule := rfl
@[simp] theorem accept_replies (w : Word) :
    (s.accept w).replies = s.replies := rfl

/-! finish -/

@[simp] theorem finish_ctrl :
    (s.finish).ctrl = s.ctrl := rfl
@[simp] theorem finish_done :
    (s.finish).done = true := rfl
@[simp] theorem finish_err :
    (s.finish).err = s.err := rfl
@[simp] theorem finish_saLo :
    (s.finish).saLo = s.saLo := rfl
@[simp] theorem finish_saHi :
    (s.finish).saHi = s.saHi := rfl
@[simp] theorem finish_sb :
    (s.finish).sb = s.sb := rfl
@[simp] theorem finish_sr :
    (s.finish).sr = s.sr := rfl
@[simp] theorem finish_mem :
    (s.finish).mem = s.mem := rfl
@[simp] theorem finish_engine :
    (s.finish).engine = .idle := rfl
@[simp] theorem finish_schedule :
    (s.finish).schedule = s.schedule := rfl
@[simp] theorem finish_replies :
    (s.finish).replies = s.replies := rfl

/-! resetBlock -/

@[simp] theorem resetBlock_ctrl :
    (s.resetBlock).ctrl = 0#32 := rfl
@[simp] theorem resetBlock_done :
    (s.resetBlock).done = false := rfl
@[simp] theorem resetBlock_err :
    (s.resetBlock).err = 0#32 := rfl
@[simp] theorem resetBlock_saLo :
    (s.resetBlock).saLo = 0#32 := rfl
@[simp] theorem resetBlock_saHi :
    (s.resetBlock).saHi = 0#32 := rfl
@[simp] theorem resetBlock_sb :
    (s.resetBlock).sb = 0#32 := rfl
@[simp] theorem resetBlock_sr :
    (s.resetBlock).sr = 0#32 := rfl
@[simp] theorem resetBlock_mem :
    (s.resetBlock).mem = [] := rfl
@[simp] theorem resetBlock_engine :
    (s.resetBlock).engine = .idle := rfl
@[simp] theorem resetBlock_schedule :
    (s.resetBlock).schedule = s.schedule := rfl
@[simp] theorem resetBlock_replies :
    (s.resetBlock).replies = s.replies := rfl

/-! withCommand -/

@[simp] theorem withCommand_ctrl (w : Word) :
    (s.withCommand w).ctrl = s.ctrl := rfl
@[simp] theorem withCommand_done (w : Word) :
    (s.withCommand w).done = false := rfl
@[simp] theorem withCommand_err (w : Word) :
    (s.withCommand w).err = s.err := rfl
@[simp] theorem withCommand_saLo (w : Word) :
    (s.withCommand w).saLo = s.saLo := rfl
@[simp] theorem withCommand_saHi (w : Word) :
    (s.withCommand w).saHi = s.saHi := rfl
@[simp] theorem withCommand_sb (w : Word) :
    (s.withCommand w).sb = s.sb := rfl
@[simp] theorem withCommand_sr (w : Word) :
    (s.withCommand w).sr = s.sr := rfl
@[simp] theorem withCommand_mem (w : Word) :
    (s.withCommand w).mem = s.mem := rfl
@[simp] theorem withCommand_engine (w : Word) :
    (s.withCommand w).engine = .run w := rfl
@[simp] theorem withCommand_schedule (w : Word) :
    (s.withCommand w).schedule = .engine :: s.schedule := rfl
@[simp] theorem withCommand_replies (w : Word) :
    (s.withCommand w).replies = s.replies := rfl

/-! completeScalar -/

@[simp] theorem completeScalar_ctrl (F : Int → Int) (ok : Int → Bool) (a : Int) :
    (s.completeScalar F ok a).ctrl = s.ctrl := rfl
@[simp] theorem completeScalar_done (F : Int → Int) (ok : Int → Bool) (a : Int) :
    (s.completeScalar F ok a).done = true := rfl
@[simp] theorem completeScalar_err (F : Int → Int) (ok : Int → Bool) (a : Int) :
    (s.completeScalar F ok a).err = (if !ok a then s.err ||| 4#32 else s.err) := rfl
@[simp] theorem completeScalar_saLo (F : Int → Int) (ok : Int → Bool) (a : Int) :
    (s.completeScalar F ok a).saLo = s.saLo := rfl
@[simp] theorem completeScalar_saHi (F : Int → Int) (ok : Int → Bool) (a : Int) :
    (s.completeScalar F ok a).saHi = s.saHi := rfl
@[simp] theorem completeScalar_sb (F : Int → Int) (ok : Int → Bool) (a : Int) :
    (s.completeScalar F ok a).sb = s.sb := rfl
@[simp] theorem completeScalar_sr (F : Int → Int) (ok : Int → Bool) (a : Int) :
    (s.completeScalar F ok a).sr = u32 (F a) := rfl
@[simp] theorem completeScalar_mem (F : Int → Int) (ok : Int → Bool) (a : Int) :
    (s.completeScalar F ok a).mem = s.mem := rfl
@[simp] theorem completeScalar_engine (F : Int → Int) (ok : Int → Bool) (a : Int) :
    (s.completeScalar F ok a).engine = .idle := rfl
@[simp] theorem completeScalar_schedule (F : Int → Int) (ok : Int → Bool) (a : Int) :
    (s.completeScalar F ok a).schedule = s.schedule := rfl
@[simp] theorem completeScalar_replies (F : Int → Int) (ok : Int → Bool) (a : Int) :
    (s.completeScalar F ok a).replies = s.replies := rfl

/-! completeVector -/

@[simp] theorem completeVector_ctrl (F : Int → Int) (ok : Int → Bool) (b : Buf) (xs : List Int) :
    (s.completeVector F ok b xs).ctrl = s.ctrl := rfl
@[simp] theorem completeVector_done (F : Int → Int) (ok : Int → Bool) (b : Buf) (xs : List Int) :
    (s.completeVector F ok b xs).done = true := rfl
@[simp] theorem completeVector_err (F : Int → Int) (ok : Int → Bool) (b : Buf) (xs : List Int) :
    (s.completeVector F ok b xs).err = (if xs.any fun a => !ok a then s.err ||| 4#32 else s.err) := rfl
@[simp] theorem completeVector_saLo (F : Int → Int) (ok : Int → Bool) (b : Buf) (xs : List Int) :
    (s.completeVector F ok b xs).saLo = s.saLo := rfl
@[simp] theorem completeVector_saHi (F : Int → Int) (ok : Int → Bool) (b : Buf) (xs : List Int) :
    (s.completeVector F ok b xs).saHi = s.saHi := rfl
@[simp] theorem completeVector_sb (F : Int → Int) (ok : Int → Bool) (b : Buf) (xs : List Int) :
    (s.completeVector F ok b xs).sb = s.sb := rfl
@[simp] theorem completeVector_sr (F : Int → Int) (ok : Int → Bool) (b : Buf) (xs : List Int) :
    (s.completeVector F ok b xs).sr = s.sr := rfl
@[simp] theorem completeVector_mem (F : Int → Int) (ok : Int → Bool) (b : Buf) (xs : List Int) :
    (s.completeVector F ok b xs).mem = s.mem.writeWords (bufOffset b 0) (xs.map fun a => u32 (F a)) := rfl
@[simp] theorem completeVector_engine (F : Int → Int) (ok : Int → Bool) (b : Buf) (xs : List Int) :
    (s.completeVector F ok b xs).engine = .idle := rfl
@[simp] theorem completeVector_schedule (F : Int → Int) (ok : Int → Bool) (b : Buf) (xs : List Int) :
    (s.completeVector F ok b xs).schedule = s.schedule := rfl
@[simp] theorem completeVector_replies (F : Int → Int) (ok : Int → Bool) (b : Buf) (xs : List Int) :
    (s.completeVector F ok b xs).replies = s.replies := rfl

end Updates

end Sys2Proof.Machine
end

