-- ==== Sys2Proof/Laws/Ops.lean ====
section
/-! SUPPORT. For each shared operation, once, everything it can do. -/

namespace Sys2Proof.Machine

/-- Offering a word accepts it if it decodes, and sets ERR.ILLEGAL if not (R201, R202). -/
theorem offerCommand_cases (s : State) (w : Word) :
    (∃ i, decode w = .ok i ∧ s.offerCommand w = s.accept w) ∨
      (∃ e, decode w = .error e ∧ s.offerCommand w = s.raiseIllegal) := by
  unfold State.offerCommand
  rcases decode w with e | i
  · exact .inr ⟨e, rfl, rfl⟩
  · exact .inl ⟨i, rfl, rfl⟩

/-- Coefficients are the signed values of the words. -/
theorem coefficients_spec (s : State) (b : Buf) (xs : List Int) :
    s.coefficients b = some xs ↔ ∃ ws, s.readBuffer b = some ws ∧ xs = ws.map BitVec.toInt := by
  unfold State.coefficients
  rcases s.readBuffer b with _ | ws
  · simp
  · simp [eq_comm]

/-- A buffer's coefficients can be read exactly when each of its words has a value. -/
theorem coefficients_isSome (s : State) (b : Buf) :
    (s.coefficients b).isSome = true ↔ ∀ i < 256, (s.readBufWord b i).isSome = true := by
  rw [← readBuffer_isSome]
  unfold State.coefficients
  rcases s.readBuffer b with _ | ws <;> simp

/-- 256 coefficients, each the signed value of its word. -/
theorem coefficients_getElem {s : State} {b : Buf} {xs : List Int}
    (h : s.coefficients b = some xs) :
    xs.length = 256 ∧
      ∀ i, (hi : i < xs.length) → ∃ w, s.readBufWord b i = some w ∧ xs[i] = w.toInt := by
  obtain ⟨ws, hws, rfl⟩ := (coefficients_spec s b xs).mp h
  obtain ⟨hl, hi⟩ := (readBuffer_spec s b ws).mp hws
  refine ⟨by simp [hl], fun i h => ?_⟩
  have h' : i < ws.length := by simpa using h
  exact ⟨ws[i], hi i h', by simp⟩

/-- 256 products, each of the two words at its index. -/
theorem products_getElem {s : State} {b1 b2 : Buf} {ps : List Int}
    (h : s.products b1 b2 = some ps) :
    ps.length = 256 ∧
      ∀ i, (hi : i < ps.length) → ∃ x y, s.readBufWord b1 i = some x ∧
        s.readBufWord b2 i = some y ∧ ps[i] = x.toInt * y.toInt := by
  unfold State.products at h
  split at h
  · rename_i xs ys hx hy
    obtain rfl : List.zipWith product xs ys = ps := by simpa using h
    obtain ⟨hlx, hix⟩ := coefficients_getElem hx
    obtain ⟨hly, hiy⟩ := coefficients_getElem hy
    refine ⟨by simp [hlx, hly], fun i hi => ?_⟩
    have h1 : i < xs.length := by simp at hi; omega
    have h2 : i < ys.length := by simp at hi; omega
    obtain ⟨x, hx, ex⟩ := hix i h1
    obtain ⟨y, hy, ey⟩ := hiy i h2
    exact ⟨x, y, hx, hy, by simp [product, ex, ey]⟩
  · cases h

/-- Products can be read exactly when both buffers can. -/
theorem products_isSome (s : State) (b1 b2 : Buf) :
    (s.products b1 b2).isSome = true ↔
      (s.coefficients b1).isSome = true ∧ (s.coefficients b2).isSome = true := by
  unfold State.products
  rcases s.coefficients b1 with _ | xs <;> rcases s.coefficients b2 with _ | ys <;> simp

/-- A vector completion answers a next state exactly when its arguments could be read (R177). -/
theorem completeOrFault_next {F : Int → Int} {ok : Int → Bool} {b : Buf}
    {args : Option (List Int)} {s t : State} (h : completeOrFault F ok b args s = .next t) :
    ∃ xs, args = some xs ∧ t = s.completeVector F ok b xs := by
  unfold completeOrFault at h
  split at h
  · rename_i xs
    exact ⟨xs, rfl, by simpa using h.symm⟩
  · cases h

/-- A performed, unhindered access: a read answers its word, a write has its effect (R64). -/
theorem hostAccess_next {kind : AccessKind} {tg : Target} {s t : State}
    (h : hostAccess kind tg s = .next t) :
    (∃ v, kind = .read ∧ s.readTarget tg = some v ∧ t = s.answer (.data v)) ∨
      (∃ w, kind = .write w ∧ t = (s.writeTarget tg w).answer .written) := by
  cases kind with
  | read =>
    simp only [hostAccess] at h
    split at h
    · rename_i v hv
      exact .inl ⟨v, rfl, hv, by simpa using h.symm⟩
    · cases h
  | write w => exact .inr ⟨w, rfl, by simpa [hostAccess] using h.symm⟩

/-- Everything an access can do when it answers a next state, in the order of R208. -/
theorem busAccess_next {a : Access} {s t : State} (h : busAccess a s = .next t) :
    (isPerformed a = false ∧ t = s.raiseBusError) ∨
      (isPerformed a = true ∧ s.busy = true ∧ isProtected (targetOf a.off.toNat) = true ∧
        t = s.raiseBusyAccess a.kind) ∨
      (isPerformed a = true ∧ (s.busy = true → isProtected (targetOf a.off.toNat) = false) ∧
        hostAccess a.kind (targetOf a.off.toNat) s = .next t) := by
  unfold busAccess at h
  split at h
  · rename_i hp
    split at h
    · rename_i hb
      simp only [Bool.and_eq_true] at hb
      exact .inr (.inl ⟨hp, hb.1, hb.2, by simpa using h.symm⟩)
    · rename_i hb
      refine .inr (.inr ⟨hp, fun hbusy => ?_, h⟩)
      simpa [hbusy] using hb
  · rename_i hp
    exact .inl ⟨by simpa using hp, by simpa using h.symm⟩

/-- The engine's turn: nothing while IDLE, exec of the decoded command while RUN (R203). -/
theorem engineTurn_next {s t : State} (h : engineTurn s = .next t) :
    (s.engine = .idle ∧ t = s) ∨
      (∃ cur i, s.engine = .run cur ∧ decode cur = .ok i ∧ exec i s = .next t) := by
  unfold engineTurn at h
  split at h
  · rename_i he
    exact .inl ⟨he, by simpa using h.symm⟩
  · rename_i cur he
    split at h
    · rename_i i hd
      exact .inr ⟨cur, i, he, hd, h⟩
    · cases h

/-- Which turn a step plays, and from which state. -/
inductive Played (s : State) : Slot → State → Prop where
  | scheduled (slot : Slot) (rest : List Slot) (h : s.schedule = slot :: rest) :
      Played s slot { s with schedule := rest }
  | exhausted (h : s.schedule = []) : Played s .engine s

/-- Every step is one turn: the scheduled one, or the engine's when nothing is scheduled. -/
theorem step_eq_turn (s : State) : ∃ slot u, Played s slot u ∧ step s = turn slot u := by
  rcases h : s.schedule with _ | ⟨slot, rest⟩
  · exact ⟨.engine, s, .exhausted h, by simp [step, nextTurn, turn, h]⟩
  · exact ⟨slot, _, .scheduled slot rest h, by simp [step, nextTurn, h]⟩

/-- The state a turn is played from differs from s in the schedule alone. -/
theorem Played.eq {s : State} {slot : Slot} {u : State} (h : Played s slot u) :
    u = { s with schedule := u.schedule } := by
  cases h <;> rfl

/-- Everything a step can do when it answers a next state. -/
theorem step_next {s t : State} (h : step s = .next t) :
    ∃ slot u, Played s slot u ∧
      ((∃ a, slot = .access a ∧ busAccess a u = .next t) ∨
        (slot = .engine ∧ engineTurn u = .next t) ∨
        (slot = .reset ∧ t = u.resetBlock)) := by
  obtain ⟨slot, u, hp, he⟩ := step_eq_turn s
  rw [he] at h
  refine ⟨slot, u, hp, ?_⟩
  cases slot with
  | access a => exact .inl ⟨a, rfl, h⟩
  | engine => exact .inr (.inl ⟨rfl, h⟩)
  | reset => exact .inr (.inr ⟨rfl, by simpa [turn] using h.symm⟩)

/-- Everything a completion step can do when it answers a next state: a scalar completion writes SR, a vector completion writes 256 words of one buffer, each may set ERR.PRE (R203). -/
theorem exec_next {i : Instr} {s t : State} (h : exec i s = .next t) :
    (i.isScalar = true ∧ ∃ F ok a, t = s.completeScalar F ok a) ∨
      (i.isScalar = false ∧ ∃ F ok b xs, xs.length = 256 ∧ t = s.completeVector F ok b xs) := by
  cases i with
  | mred => exact .inl ⟨rfl, _, _, _, by simpa [exec, execMred] using h.symm⟩
  | red32 => exact .inl ⟨rfl, _, _, _, by simpa [exec, execRed32] using h.symm⟩
  | caddq => exact .inl ⟨rfl, _, _, _, by simpa [exec, execCaddq] using h.symm⟩
  | freeze => exact .inl ⟨rfl, _, _, _, by simpa [exec, execFreeze] using h.symm⟩
  | mmul => exact .inl ⟨rfl, _, _, _, by simpa [exec, execMmul] using h.symm⟩
  | vmmul d b1 b2 =>
    obtain ⟨xs, hx, rfl⟩ := completeOrFault_next h
    exact .inr ⟨rfl, _, _, _, xs, (products_getElem hx).1, rfl⟩
  | vred32 d b =>
    obtain ⟨xs, hx, rfl⟩ := completeOrFault_next h
    exact .inr ⟨rfl, _, _, _, xs, (coefficients_getElem hx).1, rfl⟩
  | vcaddq d b =>
    obtain ⟨xs, hx, rfl⟩ := completeOrFault_next h
    exact .inr ⟨rfl, _, _, _, xs, (coefficients_getElem hx).1, rfl⟩
  | vfreeze d b =>
    obtain ⟨xs, hx, rfl⟩ := completeOrFault_next h
    exact .inr ⟨rfl, _, _, _, xs, (coefficients_getElem hx).1, rfl⟩

/-- An offset of the buffers names the word it falls in (R64). -/
theorem targetOf_of_buffers {off : Nat} (h : 0x400 ≤ off ∧ off < 0x1400) :
    targetOf off =
      .bufWord (bufOfIndex ((off - 0x400) / 0x400)) ((off - 0x400) / 4 % 256) := if_pos h

/-- An offset outside the buffers names a register or is reserved (R25). -/
theorem targetOf_of_registers {off : Nat} (h : ¬(0x400 ≤ off ∧ off < 0x1400)) :
    targetOf off = registerOf off := if_neg h

/-- No register offset names a buffer word. -/
theorem registerOf_ne_bufWord (off : Nat) (b : Buf) (i : Nat) : registerOf off ≠ .bufWord b i := by
  unfold registerOf
  split_ifs <;> exact Target.noConfusion

/-- A buffer target comes from an offset of the buffers and names an index below 256 (R64). -/
theorem targetOf_bufWord {off : Nat} {b : Buf} {i : Nat} (h : targetOf off = .bufWord b i) :
    0x400 ≤ off ∧ off < 0x1400 ∧ i < 256 := by
  by_cases hb : 0x400 ≤ off ∧ off < 0x1400
  · rw [targetOf_of_buffers hb] at h
    injection h with h1 h2
    exact ⟨hb.1, hb.2, by omega⟩
  · rw [targetOf_of_registers hb] at h
    exact absurd h (registerOf_ne_bufWord off b i)

/-- The map of R25 gives back the buffer and the index of a word's offset (R34, R64). -/
theorem targetOf_bufOffset (b : Buf) {i : Nat} (h : i < 256) :
    targetOf (bufOffset b i) = .bufWord b i := by
  have hb := bufOffset_bounds b h
  have hk := bufIndex_lt b
  have he : bufOffset b i = 0x400 + 0x400 * bufIndex b + 4 * i := rfl
  rw [targetOf_of_buffers hb.2,
    show (bufOffset b i - 0x400) / 0x400 = bufIndex b by omega,
    show (bufOffset b i - 0x400) / 4 % 256 = i by omega, bufOfIndex_bufIndex]

end Sys2Proof.Machine
end

