-- ==== Sys2Proof/Laws/PerInstr.lean ====
section
/-! SUPPORT. The family Encoding: what is true of every instruction's own word, one lemma per constructor. -/

namespace Sys2Proof.Laws.Encoding

/-- The instruction's word has its opcode in OP, clear reserved bits, and is encoded by the row of the opcode map (R94) that bears its name. -/
def Statement (i : Instr) : Prop :=
  fieldOp (encode i) = i.opcode ∧ fieldRsv (encode i) = 0#18 ∧
    ∃ r ∈ opcodeTable, r.mnemonic = i.mnemonic ∧ r.encodes (encode i) = true

theorem mred : Statement .mred := by
  refine ⟨by decide, by decide, ⟨"MRED", 0x00000001#32, 0xFFFFFFFF#32⟩, ?_, rfl, by decide⟩
  simp [opcodeTable]

theorem red32 : Statement .red32 := by
  refine ⟨by decide, by decide, ⟨"RED32", 0x00000002#32, 0xFFFFFFFF#32⟩, ?_, rfl, by decide⟩
  simp [opcodeTable]

theorem caddq : Statement .caddq := by
  refine ⟨by decide, by decide, ⟨"CADDQ", 0x00000003#32, 0xFFFFFFFF#32⟩, ?_, rfl, by decide⟩
  simp [opcodeTable]

theorem freeze : Statement .freeze := by
  refine ⟨by decide, by decide, ⟨"FREEZE", 0x00000004#32, 0xFFFFFFFF#32⟩, ?_, rfl, by decide⟩
  simp [opcodeTable]

theorem mmul : Statement .mmul := by
  refine ⟨by decide, by decide, ⟨"MMUL", 0x00000005#32, 0xFFFFFFFF#32⟩, ?_, rfl, by decide⟩
  simp [opcodeTable]

theorem vmmul (rd rs1 rs2 : Buf) : Statement (.vmmul rd rs1 rs2) := by
  refine ⟨?_, ?_, ⟨"VMMUL", 0x00000011#32, 0xFFFFC0FF#32⟩, ?_, rfl, ?_⟩
  · cases rd <;> cases rs1 <;> cases rs2 <;> decide
  · cases rd <;> cases rs1 <;> cases rs2 <;> decide
  · simp [opcodeTable]
  · cases rd <;> cases rs1 <;> cases rs2 <;> decide

theorem vred32 (rd rs1 : Buf) : Statement (.vred32 rd rs1) := by
  refine ⟨?_, ?_, ⟨"VRED32", 0x00000012#32, 0xFFFFF0FF#32⟩, ?_, rfl, ?_⟩
  · cases rd <;> cases rs1 <;> decide
  · cases rd <;> cases rs1 <;> decide
  · simp [opcodeTable]
  · cases rd <;> cases rs1 <;> decide

theorem vcaddq (rd rs1 : Buf) : Statement (.vcaddq rd rs1) := by
  refine ⟨?_, ?_, ⟨"VCADDQ", 0x00000013#32, 0xFFFFF0FF#32⟩, ?_, rfl, ?_⟩
  · cases rd <;> cases rs1 <;> decide
  · cases rd <;> cases rs1 <;> decide
  · simp [opcodeTable]
  · cases rd <;> cases rs1 <;> decide

theorem vfreeze (rd rs1 : Buf) : Statement (.vfreeze rd rs1) := by
  refine ⟨?_, ?_, ⟨"VFREEZE", 0x00000014#32, 0xFFFFF0FF#32⟩, ?_, rfl, ?_⟩
  · cases rd <;> cases rs1 <;> decide
  · cases rd <;> cases rs1 <;> decide
  · simp [opcodeTable]
  · cases rd <;> cases rs1 <;> decide

end Sys2Proof.Laws.Encoding
end

