-- ==== Sys2Proof/Tests/Slice0.lean ====
section
/-! SUPPORT. Tests whose expected results are the spec's own (95_test_vectors.md and the worked examples of the rules), the smoke tests of the well-formedness checks, and a witness for the hypotheses of every statement that has any. -/

namespace Sys2Proof.Tests

open Sys2Proof Sys2Proof.Machine

/-! Helpers. -/

/-- The next state, if there is one. -/
def nextState : Host.Outcome State Fault Refusal → Option State
  | .next t => some t
  | .fault _ => none
  | .refused _ => none

/-- SR and ERR of the next state. -/
def srAndErr (o : Host.Outcome State Fault Refusal) : Option (Word × Word) :=
  (nextState o).map fun t => (t.sr, t.err)

/-- Reset with the scalar operands given. -/
def withOperands (hi lo b : Word) : State := { State.reset with saHi := hi, saLo := lo, sb := b }

/-- PHASE = RUN with RED32 in flight on SA_LO = 5, as the busy rows of section 2.9 start. -/
def busyRed32 : State := { State.reset with saLo := 5#32, engine := .run 0x00000002#32 }

/-- A host access as the next turn of s. -/
def after (s : State) (kind : AccessKind) (off : Offset) (size : Nat) :
    Host.Outcome State Fault Refusal := step (s.plan (.access ⟨kind, off, size⟩))

/-- Reset with buffer b holding the given words. -/
def loaded (b : Buf) (ws : List Word) : State := State.reset.writeBuffer b ws

theorem readBufWord_loaded (b : Buf) (ws : List Word) (i : Nat) (h : i < ws.length) :
    (loaded b ws).readBufWord b i = some ws[i] := readBufWord_writeBuffer _ b ws i h

theorem coefficients_of_words {s : State} {b : Buf} {ws : List Word} (hl : ws.length = 256)
    (h : ∀ i, (hi : i < ws.length) → s.readBufWord b i = some ws[i]) :
    s.coefficients b = some (ws.map BitVec.toInt) :=
  (coefficients_spec s b _).mpr ⟨ws, (readBuffer_spec s b ws).mpr ⟨hl, h⟩, rfl⟩

theorem coefficients_loaded (b : Buf) (ws : List Word) (hl : ws.length = 256) :
    (loaded b ws).coefficients b = some (ws.map BitVec.toInt) :=
  coefficients_of_words hl fun i h => readBufWord_loaded b ws i h

/-- The word at index i of the destination after a vector completion. -/
theorem readBufWord_completeVector (s : State) (F : Int → Int) (ok : Int → Bool) (d : Buf)
    (xs : List Int) (i : Nat) (h : i < xs.length) :
    (s.completeVector F ok d xs).readBufWord d i = some (u32 (F xs[i])) := by
  have := readBufWord_writeBuffer s d (xs.map fun a => u32 (F a)) i (by simpa using h)
  simpa [State.readBufWord] using this

/-! Smoke tests of well-formedness: each check refuses an ill-formed term (R96, R62). -/

theorem test_reserved_bit_refused :
    reservedBitsClear 0x00004002#32 = false ∧ wellFormedWord 0x00004002#32 = false := by decide

theorem test_unassigned_opcode_refused :
    opcodeAssigned 0x00000006#32 = false ∧ wellFormedWord 0x00000006#32 = false ∧
      opcodeAssigned 0x00000010#32 = false ∧ opcodeAssigned 0x00000015#32 = false := by decide

theorem test_unused_field_refused :
    unusedFieldsClear 0x00000101#32 = false ∧ unusedFieldsClear 0x00001014#32 = false ∧
      wellFormedWord 0x00002004#32 = false ∧ wellFormedWord 0x00003F11#32 = true := by decide

theorem test_bad_access_refused :
    isPerformed ⟨.read, 0x012#13, 4⟩ = false ∧ isPerformed ⟨.write 0x55#32, 0x010#13, 1⟩ = false ∧
      isPerformed ⟨.read, 0x010#13, 8⟩ = false ∧ isPerformed ⟨.read, 0x1FFC#13, 4⟩ = true := by
  decide

/-! Decoding: section 2.8 (E-rows), beside the words written out in Decode.lean. -/

theorem test_decode_family_words :
    decode 0x00000411#32 = .ok (.vmmul .p0 .p1 .p0) ∧ decode 0x00000F14#32 = .ok (.vfreeze .p3 .p3) ∧
      decode 0x00000513#32 = .ok (.vcaddq .p1 .p1) ∧ decode 0x00000005#32 = .ok .mmul := by decide

theorem test_decode_illegal_words :
    decode 0x00000006#32 = .error .unassignedOpcode ∧ decode 0x00002004#32 = .error .unusedField ∧
      decode 0x00007211#32 = .error .reservedBits ∧ decode 0x80000002#32 = .error .reservedBits ∧
      decode 0xFFFFFFFF#32 = .error .reservedBits ∧ decode 0x000000FF#32 = .error .unassignedOpcode := by
  decide

theorem test_table_word : decodeTableWord 32 0x1211 = some (.vmmul .p2 .p0 .p1) := by decide

/-! Scalar commands: sections 2.1 to 2.5. -/

/-- M9, M12: the top of PreMRED gives q, one more sets PRE. -/
theorem test_mred_precondition_edge :
    srAndErr (exec .mred (withOperands 0x003FF000#32 0x80000000#32 0#32)) = some (0x007FE001#32, 0#32) ∧
      srAndErr (exec .mred (withOperands 0x003FF000#32 0x80000001#32 0#32)) =
        some (0x007E2061#32, 4#32) := by decide

/-- M14, M15: the 64-bit difference wraps. -/
theorem test_mred_difference_wraps :
    srAndErr (exec .mred (withOperands 0x7FFFFFFF#32 0xFFFFFFFF#32 0#32)) = some (0x8001BFA0#32, 4#32) ∧
      srAndErr (exec .mred (withOperands 0x80000000#32 0#32 0#32)) = some (0x80000000#32, 4#32) := by
  decide

/-- G13, G15: the minimum, and the first input where a 32-bit sum would wrap. -/
theorem test_red32_minimum_and_exact_sum :
    srAndErr (exec .red32 (withOperands 0#32 0x80400000#32 0#32)) = some (0xFFA020FF#32, 0#32) ∧
      srAndErr (exec .red32 (withOperands 0#32 0x7FC00000#32 0#32)) = some (0xFFDFFF00#32, 0#32) := by
  decide

/-- A4, A8, A9: −q gives 0; q and −q − 1 set PRE. -/
theorem test_caddq_edges :
    srAndErr (exec .caddq (withOperands 0#32 0xFF801FFF#32 0#32)) = some (0#32, 0#32) ∧
      srAndErr (exec .caddq (withOperands 0#32 0x007FE001#32 0#32)) = some (0x007FE001#32, 4#32) ∧
      srAndErr (exec .caddq (withOperands 0#32 0xFF801FFE#32 0#32)) = some (0xFFFFFFFF#32, 4#32) := by
  decide

/-- Z1, Z8: freeze(−1) = q − 1, and the smallest input. -/
theorem test_freeze_negative :
    srAndErr (exec .freeze (withOperands 0#32 0xFFFFFFFF#32 0#32)) = some (0x007FE000#32, 0#32) ∧
      srAndErr (exec .freeze (withOperands 0#32 0x80000000#32 0#32)) = some (0x005FE101#32, 0#32) := by
  decide

/-- X4, X12, X14: the Montgomery form of 12345; products outside PreMRED. SA_HI is ignored. -/
theorem test_mmul_products :
    srAndErr (exec .mmul (withOperands 0x1234#32 0x00003039#32 0x002419FF#32)) =
        some (0xFFE3B5DE#32, 0#32) ∧
      srAndErr (exec .mmul (withOperands 0#32 0x80000000#32 0x80000000#32)) =
        some (0x40000000#32, 4#32) ∧
      srAndErr (exec .mmul (withOperands 0#32 0x80000000#32 0x7FFFFFFF#32)) =
        some (0xC03FF001#32, 4#32) := by decide

/-! Vector commands: the worked examples of R172 to R175, whatever the other 253 words of the source are. -/

/-- R172's example: P0 = 0, 1, 2, ... and P1 = MONT2 give the Montgomery forms of 0, 1 and 2. -/
theorem test_vmmul_example (r r' : List Word) (hr : r.length = 253) (hr' : r'.length = 253) :
    ∃ t, exec (.vmmul .p2 .p0 .p1) ((loaded .p0 (0#32 :: 1#32 :: 2#32 :: r)).writeBuffer .p1
          (0x002419FF#32 :: 0x002419FF#32 :: 0x002419FF#32 :: r')) = .next t ∧
      t.readBufWord .p2 0 = some 0#32 ∧ t.readBufWord .p2 1 = some 0xFFC01DFF#32 ∧
      t.readBufWord .p2 2 = some 0x00001BFF#32 := by
  have h0 := coefficients_of_words (s := (loaded .p0 (0#32 :: 1#32 :: 2#32 :: r)).writeBuffer .p1
      (0x002419FF#32 :: 0x002419FF#32 :: 0x002419FF#32 :: r')) (b := .p0)
    (ws := 0#32 :: 1#32 :: 2#32 :: r) (by simp [hr]) (fun i hi => by
      rw [readBufWord_writeBuffer_other _ _ (by decide) (by simp [hr']) (by simp [hr] at hi; omega)]
      exact readBufWord_loaded _ _ _ hi)
  have h1 := coefficients_of_words (s := (loaded .p0 (0#32 :: 1#32 :: 2#32 :: r)).writeBuffer .p1
      (0x002419FF#32 :: 0x002419FF#32 :: 0x002419FF#32 :: r')) (b := .p1)
    (ws := 0x002419FF#32 :: 0x002419FF#32 :: 0x002419FF#32 :: r') (by simp [hr'])
    (fun i hi => readBufWord_writeBuffer _ _ _ _ hi)
  refine ⟨_, by simp only [exec, execVmmul, State.products, h0, h1, completeOrFault]; rfl, ?_, ?_, ?_⟩
  · rw [readBufWord_completeVector _ _ _ _ _ 0 (by simp)]; exact (by decide : some (u32 (mredF (product 0 2365951))) = some 0#32)
  · rw [readBufWord_completeVector _ _ _ _ _ 1 (by simp)]; exact (by decide : some (u32 (mredF (product 1 2365951))) = some 0xFFC01DFF#32)
  · rw [readBufWord_completeVector _ _ _ _ _ 2 (by simp)]; exact (by decide : some (u32 (mredF (product 2 2365951))) = some 0x00001BFF#32)

/-- R173's example. -/
theorem test_vred32_example (r : List Word) (hr : r.length = 253) :
    ∃ t, exec (.vred32 .p1 .p0) (loaded .p0 (0x007FE001#32 :: 0xFFFFFFFF#32 :: 0x80400000#32 :: r)) =
        .next t ∧ t.readBufWord .p1 0 = some 0#32 ∧
      t.readBufWord .p1 1 = some 0xFFFFFFFF#32 ∧ t.readBufWord .p1 2 = some 0xFFA020FF#32 := by
  have hc := coefficients_loaded .p0 (0x007FE001#32 :: 0xFFFFFFFF#32 :: 0x80400000#32 :: r)
    (by simp [hr])
  refine ⟨_, by simp only [exec, execVred32, hc, completeOrFault]; rfl, ?_, ?_, ?_⟩
  · rw [readBufWord_completeVector _ _ _ _ _ 0 (by simp)]; exact (by decide : some (u32 (red32F 8380417)) = some 0#32)
  · rw [readBufWord_completeVector _ _ _ _ _ 1 (by simp)]; exact (by decide : some (u32 (red32F (-1))) = some 0xFFFFFFFF#32)
  · rw [readBufWord_completeVector _ _ _ _ _ 2 (by simp)]; exact (by decide : some (u32 (red32F (-2143289344))) = some 0xFFA020FF#32)

/-- R174's example, in place: q is outside [−q, q), so PRE is set and every word is still written. -/
theorem test_vcaddq_example (r : List Word) (hr : r.length = 253) :
    ∃ t, exec (.vcaddq .p1 .p1) (loaded .p1 (0xFF801FFF#32 :: 0xFFFFFFFF#32 :: 0x007FE001#32 :: r)) =
        .next t ∧ t.readBufWord .p1 0 = some 0#32 ∧ t.readBufWord .p1 1 = some 0x007FE000#32 ∧
      t.readBufWord .p1 2 = some 0x007FE001#32 ∧ t.err = 4#32 := by
  have hc := coefficients_loaded .p1 (0xFF801FFF#32 :: 0xFFFFFFFF#32 :: 0x007FE001#32 :: r)
    (by simp [hr])
  refine ⟨_, by simp only [exec, execVcaddq, hc, completeOrFault]; rfl, ?_, ?_, ?_, ?_⟩
  · rw [readBufWord_completeVector _ _ _ _ _ 0 (by simp)]; exact (by decide : some (u32 (caddqF (-8380417))) = some 0#32)
  · rw [readBufWord_completeVector _ _ _ _ _ 1 (by simp)]; exact (by decide : some (u32 (caddqF (-1))) = some 0x007FE000#32)
  · rw [readBufWord_completeVector _ _ _ _ _ 2 (by simp)]; exact (by decide : some (u32 (caddqF 8380417)) = some 0x007FE001#32)
  · have hq : preCaddq (0x007FE001#32).toInt = false := by decide
    have he : (loaded .p1 (0xFF801FFF#32 :: 0xFFFFFFFF#32 :: 0x007FE001#32 :: r)).err = 0#32 := rfl
    rw [completeVector_err, he]
    simp only [List.map_cons, List.any_cons, hq, Bool.not_false, Bool.true_or, Bool.or_true, if_true]
    decide

/-- R175's example. -/
theorem test_vfreeze_example (r : List Word) (hr : r.length = 253) :
    ∃ t, exec (.vfreeze .p3 .p2) (loaded .p2 (0xFFC01DFF#32 :: 0xFFFFFFFF#32 :: 0x007FE001#32 :: r)) =
        .next t ∧ t.readBufWord .p3 0 = some 0x003FFE00#32 ∧
      t.readBufWord .p3 1 = some 0x007FE000#32 ∧ t.readBufWord .p3 2 = some 0#32 := by
  have hc := coefficients_loaded .p2 (0xFFC01DFF#32 :: 0xFFFFFFFF#32 :: 0x007FE001#32 :: r)
    (by simp [hr])
  refine ⟨_, by simp only [exec, execVfreeze, hc, completeOrFault]; rfl, ?_, ?_, ?_⟩
  · rw [readBufWord_completeVector _ _ _ _ _ 0 (by simp)]; exact (by decide : some (u32 (freezeF (-4186625))) = some 0x003FFE00#32)
  · rw [readBufWord_completeVector _ _ _ _ _ 1 (by simp)]; exact (by decide : some (u32 (freezeF (-1))) = some 0x007FE000#32)
  · rw [readBufWord_completeVector _ _ _ _ _ 2 (by simp)]; exact (by decide : some (u32 (freezeF 8380417)) = some 0#32)

/-! Bus accesses: section 2.9. -/

/-- B4, B5, B9: constants and reserved offsets ignore writes, CTRL keeps two bits. -/
theorem test_writes_with_no_storage :
    nextState (after State.reset (.write 0x12345678#32) 0x020#13 4) =
        some { State.reset with replies := [.written] } ∧
      nextState (after State.reset .read 0x1FFC#13 4) =
        some { State.reset with replies := [.data 0#32] } ∧
      nextState (after State.reset (.write 0xFF#32) 0x000#13 4) =
        some { State.reset with ctrl := 3#32, replies := [.written] } := by decide

/-- B7, B8, B16: a byte write, a misaligned read, and a byte read while busy are bus errors alone. -/
theorem test_bus_errors :
    nextState (after State.reset (.write 0x55#32) 0x010#13 1) =
        some { State.reset with replies := [.error] } ∧
      nextState (after State.reset .read 0x012#13 4) =
        some { State.reset with replies := [.error] } ∧
      nextState (after busyRed32 .read 0x01C#13 1) =
        some { busyRed32 with replies := [.error] } := by decide

/-- B11, B12, B15: protected accesses while busy are dropped. -/
theorem test_busy_accesses :
    nextState (after busyRed32 .read 0x01C#13 4) =
        some { busyRed32 with err := 2#32, replies := [.data 0#32] } ∧
      nextState (after busyRed32 (.write 3#32) 0x00C#13 4) =
        some { busyRed32 with err := 2#32, replies := [.written] } ∧
      nextState (after busyRed32 (.write 1#32) 0x010#13 4) =
        some { busyRed32 with err := 2#32, replies := [.written] } := by decide

/-- B13: STATUS is not protected. -/
theorem test_busy_status :
    nextState (after busyRed32 .read 0x004#13 4) =
      some { busyRed32 with replies := [.data 1#32] } := by decide

/-- R63: byte j of a written word is bits 8j+7 to 8j, at the word's offset plus j. -/
theorem test_buffer_write_little_endian :
    (nextState (after State.reset (.write 0x11223344#32) 0x13FC#13 4)).map (fun t => t.mem) =
      some [(0x13FC, 0x44#8), (0x13FD, 0x33#8), (0x13FE, 0x22#8), (0x13FF, 0x11#8)] := by decide

/-! Lifecycle, interrupt and reset: sections 2.10 and 2.11. -/

/-- I1, I2: acceptance and completion of RED32 with DONE_IE = 1. -/
theorem test_accept_and_complete :
    (nextState (after { State.reset with ctrl := 1#32 } (.write 2#32) 0x00C#13 4)).map
        (fun t => (t.status, t.irq)) = some (1#32, false) ∧
      (nextState (step { busyRed32 with ctrl := 1#32 })).map
        (fun t => (t.status, t.irq, t.sr)) = some (2#32, true, 5#32) := by decide

/-- I5: an illegal word leaves DONE. -/
theorem test_illegal_keeps_done :
    (nextState (after { State.reset with done := true } (.write 0x101#32) 0x00C#13 4)).map
      (fun t => (t.status, t.err)) = some (2#32, 1#32) := by decide

/-- I6, I7, I8: ERR_IE raises irq while an ERR bit is 1, and W1C clears the bits written 1 alone. -/
theorem test_error_interrupt_and_clear :
    (nextState (after { State.reset with err := 4#32 } (.write 2#32) 0x000#13 4)).map
        (fun t => t.irq) = some true ∧
      (nextState (after { State.reset with err := 4#32, ctrl := 2#32 } (.write 4#32) 0x008#13 4)).map
        (fun t => (t.err, t.irq)) = some (0#32, false) ∧
      (nextState (after { State.reset with err := 7#32 } (.write 2#32) 0x008#13 4)).map
        (fun t => t.err) = some 5#32 := by decide

/-- S2: reset aborts the command in flight. -/
theorem test_reset_aborts :
    nextState (step (busyRed32.plan .reset)) = some State.reset := by decide

/-- S3: a vector command on unwritten buffers is accepted, and its completion is a fault of the run. -/
theorem test_unwritten_sources_fault :
    (nextState (after State.reset (.write 0x1211#32) 0x00C#13 4)).map (fun t => t.status) =
        some 1#32 ∧
      nextState (step (State.reset.withFetchWord 32 0x1211)) = none := by decide

/-- R234: the reset state is a clean entry for a program of scalar commands, and not for one that reads P0. -/
theorem test_reset_is_clean_entry :
    State.reset.cleanEntry (lda64 5 ++ hostCmd .freeze) ⟨0#32, 0#32, 0#32, 0#32, []⟩ ∧
      ¬State.reset.cleanEntry (hostRd 0x400#13) ⟨0#32, 0#32, 0#32, 0#32, []⟩ := by
  refine ⟨reset_cleanEntry (by decide), fun h => ?_⟩
  obtain ⟨w, hw⟩ := h.2.2.1 (.p0, 0) (by decide)
  cases hw

/-- R234: a word read first is named and holds the named value; a word written first is not asked for; SB has the value named. -/
theorem test_clean_entry_names_values :
    (State.writeBufWord { State.reset with sb := 9#32 } .p0 0 7#32).cleanEntry
        (hostWr 0x404#13 1#32 ++ hostRd 0x404#13 ++ hostRd 0x400#13)
        ⟨0#32, 0#32, 9#32, 0#32, [((.p0, 0), 7#32)]⟩ ∧
      ¬State.reset.cleanEntry [] ⟨0#32, 0#32, 9#32, 0#32, []⟩ := by
  refine ⟨⟨rfl, rfl, fun p hp => ⟨7#32, ?_⟩, by decide, rfl, rfl, rfl, rfl⟩, fun h => ?_⟩
  · have hr : programReads (hostWr 0x404#13 1#32 ++ hostRd 0x404#13 ++ hostRd 0x400#13) =
        [(.p0, 0)] := by decide
    rw [hr] at hp
    rw [List.mem_singleton.mp hp]
    exact List.mem_singleton_self _
  · exact absurd h.2.2.2.2.2.2.1 (by decide)

/-- L3-5 after its line 2: FREEZE of −1 in flight. -/
def busyFreeze : State := { State.reset with saLo := 0xFFFFFFFF#32, engine := .run 4#32 }

/-- L3-5, outcomes A and B: a write to SA_LO after the completion is stored, one before it is dropped, and SR is freeze(−1) both times. -/
theorem test_late_operand_write :
    (nextState (run 2 { busyFreeze with
        schedule := [.engine, .access ⟨.write 1#32, 0x010#13, 4⟩] })).map
        (fun t => (t.sr, t.saLo, t.err, t.status)) = some (0x007FE000#32, 1#32, 0#32, 2#32) ∧
      (nextState (run 2 { busyFreeze with
        schedule := [.access ⟨.write 1#32, 0x010#13, 4⟩, .engine] })).map
        (fun t => (t.sr, t.saLo, t.err, t.status)) =
          some (0x007FE000#32, 0xFFFFFFFF#32, 2#32, 2#32) := by decide

/-- The first word placed after reset runs in the very next step: FREEZE of 0. -/
theorem test_placed_word_runs :
    (nextState (step (State.reset.withFetchWord 32 4))).map (fun t => (t.status, t.sr)) =
      some (2#32, 0#32) := by decide

/-! Witnesses: concrete values that meet the hypotheses of each statement that has any, one per clause, at the ends of its ranges. -/

/-- n zero words. -/
def zeroWords (n : Nat) : List Word := List.replicate n 0#32

theorem length_zeroWords (n : Nat) : (zeroWords n).length = n := List.length_replicate

theorem mem_zeroWords {n : Nat} {w : Word} (h : w ∈ zeroWords n) : w = 0#32 :=
  List.eq_of_mem_replicate h

/-- 256 zero words. -/
@[irreducible] def zeros : List Word := zeroWords Config.n

theorem length_zeros : zeros.length = 256 := by unfold zeros; exact length_zeroWords _

theorem mem_zeros {w : Word} (h : w ∈ zeros) : w = 0#32 := by
  unfold zeros at h; exact mem_zeroWords h

/-- Reset with P0 written, every word 0. -/
def filled : State := loaded .p0 zeros

theorem filled_word (i : Nat) (h : i < 256) : filled.readBufWord .p0 i = some 0#32 := by
  have h' : i < zeros.length := by rw [length_zeros]; exact h
  rw [filled, readBufWord_loaded .p0 zeros i h', mem_zeros (List.getElem_mem h')]

theorem filled_written : filled.bufferWritten .p0 := fun i h => by rw [filled_word i h]; rfl

theorem filled_coefficients : (filled.coefficients .p0).isSome = true :=
  (coefficients_isSome filled .p0).mpr filled_written

/-- A vector completion on the filled buffer answers a next state. -/
theorem filled_completes (F : Int → Int) (ok : Int → Bool) (d : Buf) :
    ∃ t, completeOrFault F ok d (filled.coefficients .p0) filled = .next t := by
  obtain ⟨xs, h⟩ := Option.isSome_iff_exists.mp filled_coefficients
  exact ⟨_, by rw [h]; rfl⟩

theorem witness_DecodeAndEncodeAreInverse :
    decode 0x00003F11#32 = .ok (.vmmul .p3 .p3 .p3) ∧ decode 0x00000001#32 = .ok .mred := by decide

theorem witness_DecodeAgreesWithOpcodeTable :
    (⟨"VMMUL", 0x00000011#32, 0xFFFFC0FF#32⟩ : OpcodeRow) ∈ opcodeTable ∧
      OpcodeRow.encodes ⟨"VMMUL", 0x00000011#32, 0xFFFFC0FF#32⟩ 0x00003F11#32 = true ∧
      decode 0x00003F11#32 = .ok (.vmmul .p3 .p3 .p3) := by decide

theorem witness_MontgomeryDifferenceDivides :
    (-2 ^ 63 : Int) ≤ -2 ^ 63 ∧ (-2 ^ 63 : Int) < 2 ^ 63 ∧ (2 ^ 63 - 1 : Int) < 2 ^ 63 := by decide

theorem witness_MontgomeryGuarantee :
    (-(8380417 * 2 ^ 31) : Int) ≤ 8380417 * 2 ^ 31 ∧ (8380417 * 2 ^ 31 : Int) ≤ 8380417 * 2 ^ 31 ∧
      (-(8380417 * 2 ^ 31) : Int) ≤ -(8380417 * 2 ^ 31) := by decide

theorem witness_MontgomeryOutsidePrecondition :
    (-2 ^ 63 + (2 ^ 31 - 1) * 8380417 : Int) ≤ 2 ^ 63 - 2 ^ 31 * 8380417 - 1 ∧
      ¬withinMred (2 ^ 63 - 2 ^ 31 * 8380417 - 1) ∧
      ¬withinMred (-2 ^ 63 + (2 ^ 31 - 1) * 8380417) := by decide

theorem witness_Reduce32ShiftForm :
    (-2 ^ 31 : Int) ≤ -2 ^ 31 ∧ (-256 : Int) = (-2 ^ 31 + 2 ^ 22) / 2 ^ 23 ∧
      (0 : Int) = -2 ^ 31 - -256 * 2 ^ 23 ∧ (256 : Int) = (2 ^ 31 - 1 + 2 ^ 22) / 2 ^ 23 := by decide

theorem witness_Reduce32Guarantee :
    (-2 ^ 31 : Int) ≤ -2143289344 ∧ (2143289343 : Int) < 2 ^ 31 := by decide

theorem witness_CaddqGuarantee :
    (-2 ^ 31 : Int) ≤ -2 ^ 31 ∧ (2 ^ 31 - 1 : Int) < 2 ^ 31 ∧ withinCaddq (-8380417) ∧
      withinCaddq 8380416 ∧ ¬withinCaddq 8380417 ∧ ¬withinCaddq (-8380418) := by decide

theorem witness_FreezeIsCanonical :
    (-2 ^ 31 : Int) ≤ -2 ^ 31 ∧ (2 ^ 31 - 1 : Int) < 2 ^ 31 := by decide

theorem witness_MontgomeryProductGuarantee :
    (-2 ^ 31 : Int) ≤ -2 ^ 31 ∧ (-2 ^ 31 : Int) < 2 ^ 31 ∧ withinMred (8380417 * 2 ^ 31 / 2 ^ 8 * 2 ^ 8) ∧
      (-8380417 : Int) < -8380416 ∧ (8380416 : Int) < 8380417 := by decide

theorem witness_VmmulCompletes :
    filled.bufferWritten .p0 ∧ filled.readBufWord .p0 255 = some 0#32 :=
  ⟨filled_written, filled_word 255 (by decide)⟩

theorem witness_Vred32Completes :
    filled.bufferWritten .p0 ∧ filled.readBufWord .p0 0 = some 0#32 :=
  ⟨filled_written, filled_word 0 (by decide)⟩

theorem witness_VcaddqCompletes :
    filled.bufferWritten .p0 ∧ filled.readBufWord .p0 255 = some 0#32 :=
  ⟨filled_written, filled_word 255 (by decide)⟩

theorem witness_VfreezeCompletes :
    filled.bufferWritten .p0 ∧ filled.readBufWord .p0 255 = some 0#32 :=
  ⟨filled_written, filled_word 255 (by decide)⟩

theorem witness_VfreezeOutputIsCanonical : ∃ t, exec (.vfreeze .p3 .p0) filled = .next t :=
  filled_completes _ _ _

theorem witness_VfreezeTwiceEqualsOnce : ∃ t, exec (.vfreeze .p0 .p0) filled = .next t :=
  filled_completes _ _ _

theorem witness_VcaddqAfterVred32IsVfreeze :
    ∃ t f, exec (.vred32 .p1 .p0) filled = .next t ∧ exec (.vfreeze .p1 .p0) filled = .next f := by
  obtain ⟨t, ht⟩ := filled_completes red32F noPrecondition .p1
  obtain ⟨f, hf⟩ := filled_completes freezeF noPrecondition .p1
  exact ⟨t, f, ht, hf⟩

theorem witness_AccessPatternDecidesFault :
    (∃ t, exec (.vcaddq .p1 .p0) filled = .next t) ∧ ¬inBuffer .p1 0x13FF := by
  refine ⟨filled_completes _ _ _, ?_⟩
  simp [inBuffer, bufOffset, bufIndex, Config.n]

theorem witness_ValuesDoNotSteerAccesses :
    ∃ t, exec (.vfreeze .p0 .p0) filled = .next t ∧
      filled.mem.map Prod.fst = filled.mem.map Prod.fst := by
  obtain ⟨t, h⟩ := filled_completes freezeF noPrecondition .p0
  exact ⟨t, h, rfl⟩

theorem witness_ResultsDependOnOperandsAlone :
    sameOperands State.reset { State.reset with saHi := 1#32, err := 7#32 } .red32 ∧
      ∃ t, exec .red32 State.reset = .next t := ⟨rfl, _, rfl⟩

theorem witness_WindowDecoding :
    offsetOfPlatform (Config.base + 0x1FFF) = some 0x1FFF#13 := by
  simp [offsetOfPlatform]

theorem witness_WrongSizeOrAlignmentIsBusError :
    ((⟨.read, 0x010#13, 1⟩ : Access).size ≠ 4) ∧ (0x1FFF#13).toNat % 4 ≠ 0 := by decide

theorem witness_BusyAccessIsDropped :
    busyRed32.engine = .run 2#32 ∧ (0x400#13).toNat % 4 = 0 ∧ protectedOffset (0x400#13).toNat ∧
      protectedOffset (0x13FC#13).toNat ∧ protectedOffset (0x00C#13).toNat := by
  simp [busyRed32, protectedOffset]

theorem witness_IdleReadsOfProtectedOffsets :
    State.reset.engine = .idle ∧ (0x13FC#13).toNat = 0x400 + 0x400 * bufIndex .p3 + 4 * 255 ∧
      (0x400#13).toNat = 0x400 + 0x400 * bufIndex .p0 + 4 * 0 ∧
      State.reset.readBufWord .p3 255 = none ∧ filled.readBufWord .p0 0 = some 0#32 :=
  ⟨rfl, rfl, rfl, rfl, filled_word 0 (by decide)⟩

theorem witness_IdleWritesOfProtectedOffsets :
    State.reset.engine = .idle ∧ (0x13FC#13).toNat = 0x400 + 0x400 * bufIndex .p3 + 4 * 255 := by
  decide

theorem witness_ReservedOffsets :
    (0x02C#13).toNat % 4 = 0 ∧ (0x02C#13).toNat = 0x02C ∧ (0x3FC#13).toNat = 0x3FC ∧
      (0x1400#13).toNat = 0x1400 ∧ (0x1FFC#13).toNat = 0x1FFC := by decide

theorem witness_RepeatedAccessIsIdempotent :
    (∃ t, after State.reset (.write 3#32) 0x000#13 4 = .next t) ∧
      (∃ t, after busyRed32 .read 0x01C#13 4 = .next t) ∧
      State.reset.engine = .idle ∧ ∃ t, after State.reset .read 0x01C#13 4 = .next t :=
  ⟨⟨_, rfl⟩, ⟨_, rfl⟩, rfl, _, rfl⟩

theorem witness_OfferedCommand :
    State.reset.engine = .idle ∧ decode 4#32 = .ok .freeze ∧ decode 0#32 = .error .unassignedOpcode ∧
      busyRed32.engine = .run 2#32 := by decide

theorem witness_StepRunsTheDecodedCommand :
    busyRed32.engine = .run 2#32 ∧ decode 2#32 = .ok .red32 ∧ busyRed32.schedule = [] := by decide

theorem witness_CompletionEndsTheCommand : ∃ t, exec .mred State.reset = .next t := ⟨_, rfl⟩

theorem witness_PlacedWordRunsNext :
    0x3F11 < 2 ^ 32 ∧ decodeTableWord 32 0x3F11 = some (.vmmul .p3 .p3 .p3) := by decide

theorem witness_IdleBlockWaits : State.reset.engine = .idle ∧ State.reset.schedule = [] := by decide

/-- A state with every kind of thing in it that meets the invariant: a written word, all flags, a command in flight. -/
theorem witness_EveryStepKeepsTheInvariant :
    ∃ t, State.Inv { busyRed32 with mem := Memory.writeWord [] 0x13FC 1#32, ctrl := 3#32, err := 7#32 } ∧
      step { busyRed32 with mem := Memory.writeWord [] 0x13FC 1#32, ctrl := 3#32, err := 7#32 } = .next t :=
  ⟨_, by decide, rfl⟩

theorem witness_OnlyScalarCompletionsWriteSr :
    (∃ t, step busyRed32 = .next t ∧ t.sr ≠ busyRed32.sr) ∧
      ∃ t, step (State.plan { State.reset with sr := 1#32 } .reset) = .next t ∧ t.sr ≠ 1#32 :=
  ⟨⟨_, rfl, by decide⟩, _, rfl, by decide⟩

/-- One witness per clause: ERR.PRE cleared by W1C; an illegal word; a busy access; a completion of CADDQ on q. -/
theorem witness_ErrorBitsAndTheirEvents :
    (∃ t, after { State.reset with err := 4#32 } (.write 4#32) 0x008#13 4 = .next t ∧
        t.err.getLsbD 2 = false) ∧
      (∃ t, after State.reset (.write 0#32) 0x00C#13 4 = .next t ∧ t.illegal = true) ∧
      (∃ t, after busyRed32 .read 0x13FC#13 4 = .next t ∧ t.busyacc = true) ∧
      ∃ t, step { State.reset with saLo := 0x007FE001#32, engine := .run 3#32 } = .next t ∧
        t.pre = true :=
  ⟨⟨_, rfl, by decide⟩, ⟨_, rfl, by decide⟩, ⟨_, rfl, by decide⟩, _, rfl, by decide⟩

theorem witness_DoneAndItsEvents :
    (∃ t, step busyRed32 = .next t ∧ t.done = true) ∧
      (∃ t, after { State.reset with done := true } (.write 2#32) 0x004#13 4 = .next t ∧
        t.done = false) ∧
      (∃ t, after { State.reset with done := true } (.write 2#32) 0x00C#13 4 = .next t ∧
        t.done = false) ∧
      ∃ t, step (State.plan { State.reset with done := true } .reset) = .next t ∧ t.done = false :=
  ⟨⟨_, rfl, rfl⟩, ⟨_, rfl, rfl⟩, ⟨_, rfl, rfl⟩, _, rfl, rfl⟩

theorem witness_PhaseChanges :
    (∃ t, after State.reset (.write 2#32) 0x00C#13 4 = .next t ∧ t.engine = .run 2#32) ∧
      ∃ t, step busyRed32 = .next t ∧ t.engine ≠ .run 2#32 :=
  ⟨⟨_, rfl, rfl⟩, _, rfl, by decide⟩

theorem witness_OperandsHoldWhileBusy : busyRed32.engine = .run 2#32 := rfl

theorem witness_AcceptedCommandCompletes :
    busyRed32.engine = .run 2#32 ∧ decode 2#32 = .ok .red32 ∧ busyRed32.sourcesWritten .red32 ∧
      Slot.reset ∉ ([.access ⟨.read, 0x01C#13, 4⟩, .engine] : List Slot) ∧
      filled.sourcesWritten (.vfreeze .p1 .p0) :=
  ⟨rfl, rfl, trivial, by decide, filled_written⟩

theorem witness_SetWinsOverClear :
    decode 3#32 = .ok .caddq ∧ State.sourcesWritten State.reset .caddq ∧
      State.breaksPrecondition { State.reset with saLo := 0x007FE001#32, engine := .run 3#32 } .caddq :=
  ⟨rfl, trivial, by unfold State.breaksPrecondition; decide⟩

theorem witness_Lda64LoadsSa :
    State.reset.engine = .idle ∧ (-2 ^ 63 : Int) ≤ -2 ^ 63 ∧ (2 ^ 63 - 1 : Int) < 2 ^ 63 := by decide

theorem witness_TomontAndFrommont : State.reset.engine = .idle := rfl

end Sys2Proof.Tests
end

section
/-! PROOFS. The scope of the block (00_scope.md): what its constants are to the modulus (R6), what a command's result depends on (R19), and what the values it holds do not decide (R18). -/

namespace Sys2Proof.Machine

/-! ## The constants (R6, R120) -/

/-- QINV inverts q modulo 2^32, as MRED_F needs (R120). -/
theorem q_mul_qinv_emod : Config.q * Config.qinv % 2 ^ 32 = 1 := by decide

/-- 8265825 inverts 2^32 modulo q, the factor that MRED_F leaves (R120). -/
theorem two_pow_32_mul_inverse_emod : 2 ^ 32 * 8265825 % Config.q = 1 := by decide

/-- MONT is the representative of 2^32 mod q below 0 (R6). -/
theorem mont_add_q : Config.mont + Config.q = 2 ^ 32 % Config.q := by decide

/-- MONT2 is 2^64 mod q (R6). -/
theorem mont2_eq : Config.mont2 = 2 ^ 64 % Config.q := by decide

/-- Settles O7: each of the five facts is the evaluation of a closed term. -/
theorem constantsOfTheModulus : Obligations.ConstantsOfTheModulus :=
  ⟨by decide, q_mul_qinv_emod, mont_add_q, mont2_eq, two_pow_32_mul_inverse_emod⟩

/-! ## Which bytes hold a value

A memory's offsets are those of the bytes that hold a value (R40). A read has a value, and a write
adds an offset, by the offsets alone. -/

/-- The offsets of the bytes that hold a value, in the memory's order. -/
abbrev Memory.offsets (m : Memory) : List Nat := m.map Prod.fst

/-- A byte has a value exactly when its offset is listed. -/
theorem readByte_isSome_iff (m : Memory) (a : Nat) :
    (m.readByte a).isSome = true ↔ a ∈ m.offsets := by
  induction m with
  | nil => simp [Memory.readByte]
  | cons c m ih =>
    rw [readByte_cons]
    by_cases h : c.1 = a
    · simp [h]
    · simp [h, Ne.symm h, ih]

/-- Whether a buffer word has a value is decided by the offsets. -/
theorem readBufWord_isSome_congr {s s' : State} (h : s.mem.offsets = s'.mem.offsets) (b : Buf)
    (i : Nat) : (s.readBufWord b i).isSome = true ↔ (s'.readBufWord b i).isSome = true := by
  simp only [State.readBufWord, readWord_isSome, readByte_isSome_iff, h]

/-- Whether a buffer can be read as a whole is decided by the offsets. -/
theorem coefficients_isSome_congr {s s' : State} (h : s.mem.offsets = s'.mem.offsets) (b : Buf) :
    (s.coefficients b).isSome = true ↔ (s'.coefficients b).isSome = true := by
  simp only [coefficients_isSome, readBufWord_isSome_congr h]

/-- Whether the products of two buffers can be read is decided by the offsets. -/
theorem products_isSome_congr {s s' : State} (h : s.mem.offsets = s'.mem.offsets) (b1 b2 : Buf) :
    (s.products b1 b2).isSome = true ↔ (s'.products b1 b2).isSome = true := by
  simp only [products_isSome, coefficients_isSome_congr h]

/-- Writing a byte changes the offsets by its offset alone: neither the byte written nor the bytes held matter. -/
theorem offsets_writeByte_congr {m m' : Memory} (h : m.offsets = m'.offsets) (a : Nat)
    (b b' : Byte) : (m.writeByte a b).offsets = (m'.writeByte a b').offsets := by
  induction m generalizing m' with
  | nil =>
    obtain rfl : m' = [] := by simpa using h.symm
    rfl
  | cons c m ih =>
    cases m' with
    | nil => simp at h
    | cons c' m' =>
      obtain ⟨hc, hm⟩ := List.cons.inj h
      rw [writeByte_cons, writeByte_cons, ← hc]
      split_ifs
      · simp [hc, hm]
      · simp [hm]
      · simp [hc, ih hm]

/-- Writing a word changes the offsets by its offset alone. -/
theorem offsets_writeWord_congr {m m' : Memory} (h : m.offsets = m'.offsets) (a : Nat)
    (w w' : Word) : (m.writeWord a w).offsets = (m'.writeWord a w').offsets := by
  simp only [Memory.writeWord]
  exact offsets_writeByte_congr (offsets_writeByte_congr (offsets_writeByte_congr
    (offsets_writeByte_congr h _ _ _) _ _ _) _ _ _) _ _ _

/-- Writing a run of words changes the offsets by where it starts and how long it is. -/
theorem offsets_writeWords_congr {m m' : Memory} (h : m.offsets = m'.offsets) (a : Nat)
    {ws ws' : List Word} (hl : ws.length = ws'.length) :
    (m.writeWords a ws).offsets = (m'.writeWords a ws').offsets := by
  induction ws generalizing m m' a ws' with
  | nil =>
    obtain rfl : ws' = [] := by simpa using hl.symm
    exact h
  | cons w ws ih =>
    cases ws' with
    | nil => simp at hl
    | cons w' ws' =>
      exact ih (offsets_writeWord_congr h a w w') (a + 4) (by simpa using hl)

/-! ## Completion and the bytes that hold a value (R18, R178) -/

/-- A vector completion depends on the offsets and on whether its arguments could be read: from any other values under the same offsets it completes too, with the same offsets after it. -/
theorem completeOrFault_offsets_congr {F : Int → Int} {ok : Int → Bool} {rd : Buf}
    {args args' : Option (List Int)} {s s' t : State} (hm : s.mem.offsets = s'.mem.offsets)
    (hread : args.isSome = true ↔ args'.isSome = true)
    (hlen : ∀ {xs}, args = some xs → xs.length = 256)
    (hlen' : ∀ {xs}, args' = some xs → xs.length = 256)
    (h : completeOrFault F ok rd args s = .next t) :
    ∃ t', completeOrFault F ok rd args' s' = .next t' ∧ t.mem.offsets = t'.mem.offsets := by
  obtain ⟨xs, hx, rfl⟩ := completeOrFault_next h
  obtain ⟨xs', hx'⟩ := Option.isSome_iff_exists.mp (hread.mp (by simp [hx]))
  refine ⟨s'.completeVector F ok rd xs', by rw [hx']; rfl, ?_⟩
  rw [completeVector_mem, completeVector_mem]
  exact offsets_writeWords_congr hm _ (by simp [hlen hx, hlen' hx'])

/-- The case of a unary vector command. -/
theorem completeOrFault_coefficients_offsets_congr {F : Int → Int} {ok : Int → Bool} {rd rs : Buf}
    {s s' t : State} (hm : s.mem.offsets = s'.mem.offsets)
    (h : completeOrFault F ok rd (s.coefficients rs) s = .next t) :
    ∃ t', completeOrFault F ok rd (s'.coefficients rs) s' = .next t' ∧
      t.mem.offsets = t'.mem.offsets :=
  completeOrFault_offsets_congr hm (coefficients_isSome_congr hm rs)
    (fun hx => (coefficients_getElem hx).1) (fun hx => (coefficients_getElem hx).1) h

/-- A scalar completion never faults, and keeps the offsets (R34, R178). -/
theorem completeScalar_offsets_congr {F : Int → Int} {ok : Int → Bool} {a a' : Int}
    {s s' t : State} (hm : s.mem.offsets = s'.mem.offsets)
    (h : (.next (s.completeScalar F ok a) : Host.Outcome State Fault Refusal) = .next t) :
    ∃ t', (.next (s'.completeScalar F ok a') : Host.Outcome State Fault Refusal) = .next t' ∧
      t.mem.offsets = t'.mem.offsets := by
  cases h
  exact ⟨_, rfl, hm⟩

/-- Settles O30: a scalar command touches no buffer; a vector command completes exactly when its
sources' offsets are listed, and then lists those of 256 words of P[rd]. -/
theorem valuesDoNotSteerAccesses : Obligations.ValuesDoNotSteerAccesses := by
  intro i s s' t hm h
  cases i with
  | mred => exact completeScalar_offsets_congr hm h
  | red32 => exact completeScalar_offsets_congr hm h
  | caddq => exact completeScalar_offsets_congr hm h
  | freeze => exact completeScalar_offsets_congr hm h
  | mmul => exact completeScalar_offsets_congr hm h
  | vmmul rd rs1 rs2 =>
    exact completeOrFault_offsets_congr hm (products_isSome_congr hm rs1 rs2)
      (fun hx => (products_getElem hx).1) (fun hx => (products_getElem hx).1) h
  | vred32 rd rs1 => exact completeOrFault_coefficients_offsets_congr hm h
  | vcaddq rd rs1 => exact completeOrFault_coefficients_offsets_congr hm h
  | vfreeze rd rs1 => exact completeOrFault_coefficients_offsets_congr hm h

/-! ## Operands decide the result and the flag (R19, R204) -/

/-- A buffer is read as its 256 words read. -/
theorem readBuffer_congr {s s' : State} {b : Buf}
    (h : ∀ i < 256, s.readBufWord b i = s'.readBufWord b i) : s.readBuffer b = s'.readBuffer b := by
  ext1 ws
  simp only [readBuffer_spec]
  refine and_congr_right fun hl => forall₂_congr fun i hi => ?_
  rw [h i (hl ▸ hi)]

/-- The coefficients of a buffer depend on its 256 words alone. -/
theorem coefficients_congr {s s' : State} {b : Buf}
    (h : ∀ i < 256, s.readBufWord b i = s'.readBufWord b i) :
    s.coefficients b = s'.coefficients b := by
  simp only [State.coefficients, readBuffer_congr h]

/-- The products of two buffers depend on their words alone. -/
theorem products_congr {s s' : State} {b1 b2 : Buf}
    (h1 : ∀ i < 256, s.readBufWord b1 i = s'.readBufWord b1 i)
    (h2 : ∀ i < 256, s.readBufWord b2 i = s'.readBufWord b2 i) :
    s.products b1 b2 = s'.products b1 b2 := by
  simp only [State.products, coefficients_congr h1, coefficients_congr h2]

/-- A vector completion leaves in P[rd] the images of its arguments. -/
theorem readBufWord_completeVector (s : State) (F : Int → Int) (ok : Int → Bool) (rd : Buf)
    (xs : List Int) (i : Nat) (hi : i < xs.length) :
    (s.completeVector F ok rd xs).readBufWord rd i = some (u32 (F xs[i])) := by
  calc (s.completeVector F ok rd xs).readBufWord rd i
      = (s.writeBuffer rd (xs.map fun a => u32 (F a))).readBufWord rd i := rfl
    _ = some (u32 (F xs[i])) := by simp [readBufWord_writeBuffer, hi]

/-- Completions from s to t and from s' to t' have the same effect on ERR: none, or to set PRE (R204). -/
def sameErrEffect (s t s' t' : State) : Prop :=
  (t.err = s.err ∧ t'.err = s'.err) ∨ (t.err = s.err ||| 4#32 ∧ t'.err = s'.err ||| 4#32)

/-- Flagging PRE on the same ground has the same effect on ERR, whatever errors stand there. -/
theorem sameErrEffect_of_flagPre {s t s' t' : State} {broken : Bool}
    (h : t.err = (s.flagPre broken).err) (h' : t'.err = (s'.flagPre broken).err) :
    sameErrEffect s t s' t' := by
  rw [flagPre_err] at h h'
  cases broken with
  | false => exact .inl ⟨h, h'⟩
  | true => exact .inr ⟨h, h'⟩

/-- Scalar completions on the same argument give the same SR and the same effect on ERR. -/
theorem completeScalar_sameResult {F : Int → Int} {ok : Int → Bool} {a a' : Int} {s s' t : State}
    (ha : a = a')
    (h : (.next (s.completeScalar F ok a) : Host.Outcome State Fault Refusal) = .next t) :
    ∃ t', (.next (s'.completeScalar F ok a') : Host.Outcome State Fault Refusal) = .next t' ∧
      t.sr = t'.sr ∧ sameErrEffect s t s' t' := by
  cases h
  subst ha
  exact ⟨_, rfl, rfl, sameErrEffect_of_flagPre (broken := !ok a) rfl rfl⟩

/-- Vector completions on the same arguments give the same words of P[rd] and the same effect on ERR. -/
theorem completeOrFault_sameResult {F : Int → Int} {ok : Int → Bool} {rd : Buf}
    {args args' : Option (List Int)} {s s' t : State} (ha : args = args')
    (hlen : ∀ {xs}, args = some xs → xs.length = 256)
    (h : completeOrFault F ok rd args s = .next t) :
    ∃ t', completeOrFault F ok rd args' s' = .next t' ∧
      (∀ i < 256, t.readBufWord rd i = t'.readBufWord rd i) ∧ sameErrEffect s t s' t' := by
  obtain ⟨xs, hx, rfl⟩ := completeOrFault_next h
  have hl := hlen hx
  refine ⟨s'.completeVector F ok rd xs, by rw [← ha, hx]; rfl, fun i hi => ?_,
    sameErrEffect_of_flagPre (broken := xs.any fun a => !ok a) rfl rfl⟩
  rw [readBufWord_completeVector _ _ _ _ _ _ (hl ▸ hi),
    readBufWord_completeVector _ _ _ _ _ _ (hl ▸ hi)]

/-- The case of a unary vector command. -/
theorem completeOrFault_coefficients_sameResult {F : Int → Int} {ok : Int → Bool} {rd rs : Buf}
    {s s' t : State} (hs : ∀ i < 256, s.readBufWord rs i = s'.readBufWord rs i)
    (h : completeOrFault F ok rd (s.coefficients rs) s = .next t) :
    ∃ t', completeOrFault F ok rd (s'.coefficients rs) s' = .next t' ∧
      (∀ i < 256, t.readBufWord rd i = t'.readBufWord rd i) ∧ sameErrEffect s t s' t' :=
  completeOrFault_sameResult (coefficients_congr hs) (fun hx => (coefficients_getElem hx).1) h

/-- Settles O31: the argument of each command is a function of its operands, and equal arguments
give equal results and the same effect on ERR. -/
theorem resultsDependOnOperandsAlone : Obligations.ResultsDependOnOperandsAlone := by
  intro i s s' t hs h
  cases i with
  | mred =>
    obtain ⟨hlo, hhi⟩ := hs
    exact completeScalar_sameResult (by rw [State.sa64, State.sa64, hlo, hhi]) h
  | red32 => exact completeScalar_sameResult (congrArg BitVec.toInt hs) h
  | caddq => exact completeScalar_sameResult (congrArg BitVec.toInt hs) h
  | freeze => exact completeScalar_sameResult (congrArg BitVec.toInt hs) h
  | mmul =>
    obtain ⟨hlo, hsb⟩ := hs
    exact completeScalar_sameResult
      (congrArg₂ product (congrArg BitVec.toInt hlo) (congrArg BitVec.toInt hsb)) h
  | vmmul rd rs1 rs2 =>
    exact completeOrFault_sameResult
      (products_congr (fun i hi => (hs i hi).1) fun i hi => (hs i hi).2)
      (fun hx => (products_getElem hx).1) h
  | vred32 rd rs1 => exact completeOrFault_coefficients_sameResult hs h
  | vcaddq rd rs1 => exact completeOrFault_coefficients_sameResult hs h
  | vfreeze rd rs1 => exact completeOrFault_coefficients_sameResult hs h

end Sys2Proof.Machine
end

section
/-! PROOFS. The state of the block (10_state.md): what one step can do to it, said once; the invariant every step keeps; which events change SR, DONE and the ERR bits (R24, R27, R28); the constant and reserved offsets (R30 to R33); irq (R37), busy protection (R39) and reset (R40). -/

namespace Sys2Proof.Machine

/-! ## Offsets and what they name (R25, R33, R39) -/

/-- The registers end at 0x028 (R25). -/
theorem registerOf_of_ge {n : Nat} (h : 0x02C ≤ n) : registerOf n = .reserved := by
  simp (disch := omega) only [registerOf, if_neg]

/-- Each register has one offset. -/
theorem registerOf_injective {n m : Nat} (h : registerOf n = registerOf m)
    (hm : registerOf m ≠ .reserved) : n = m := by
  have small : ∀ k, registerOf k ≠ .reserved → k < 0x02C := fun k hk =>
    Nat.lt_of_not_le fun hge => hk (registerOf_of_ge hge)
  have pairs : ∀ n < 0x02C, ∀ m < 0x02C,
      registerOf n = registerOf m → registerOf m ≠ .reserved → n = m := by decide
  exact pairs n (small n (h ▸ hm)) m (small m hm) h hm

/-- An offset of the window that names a register is that register's offset `m`. -/
theorem eq_of_targetOf {off : Offset} (m : Offset) (h : targetOf off.toNat = registerOf m.toNat)
    (hm : registerOf m.toNat ≠ .reserved) : off = m := by
  by_cases hb : 0x400 ≤ off.toNat ∧ off.toNat < 0x1400
  · rw [targetOf_of_buffers hb] at h
    exact absurd h.symm (registerOf_ne_bufWord _ _ _)
  · rw [targetOf_of_registers hb] at h
    exact BitVec.eq_of_toNat_eq (registerOf_injective h hm)

/-- The protected targets are those of R39's offsets. -/
theorem isProtected_targetOf_iff (n : Nat) :
    isProtected (targetOf n) = true ↔ protectedOffset n := by
  unfold protectedOffset
  by_cases hb : 0x400 ≤ n ∧ n < 0x1400
  · simp [targetOf_of_buffers hb, isProtected, hb]
  rw [targetOf_of_registers hb]
  by_cases hn : n < 0x02C
  · have listed : ∀ n < 0x02C, isProtected (registerOf n) = true ↔
        n = 0x010 ∨ n = 0x014 ∨ n = 0x018 ∨ n = 0x01C ∨ n = 0x00C := by decide
    simp [listed n hn, hb]
  · rw [registerOf_of_ge (by omega)]
    simp only [isProtected, hb, or_false, Bool.false_eq_true, false_iff]
    omega

/-- The offsets of the two reserved ranges name nothing (R33). -/
theorem targetOf_of_reserved {n : Nat}
    (h : (0x02C ≤ n ∧ n ≤ 0x3FC) ∨ (0x1400 ≤ n ∧ n ≤ 0x1FFC)) : targetOf n = .reserved := by
  rw [targetOf_of_registers (by omega), registerOf_of_ge (by omega)]

/-- An access that is performed has size 4 (R62). -/
theorem size_of_isPerformed {a : Access} (h : isPerformed a = true) : a.size = 4 := by
  simp only [isPerformed, Bool.and_eq_true, decide_eq_true_eq] at h
  exact h.1

/-- BUSY = 0 exactly while PHASE = IDLE (R36). -/
theorem busy_eq_false_iff (s : State) : s.busy = false ↔ s.engine = .idle := by
  unfold State.busy
  cases s.engine <;> simp

/-- BUSY = 1 exactly while PHASE = RUN (R36). -/
theorem busy_eq_true_iff (s : State) : s.busy = true ↔ ∃ cur, s.engine = .run cur := by
  unfold State.busy
  cases s.engine <;> simp

/-! ## What a write does, field by field (R64) -/

/-- A write leaves the schedule and the replies to the turn it is part of. -/
theorem answer_writeTarget (s : State) (l : List Slot) (tg : Target) (w : Word) (r : Reply) :
    (({ s with schedule := l } : State).writeTarget tg w).answer r =
      { s.writeTarget tg w with schedule := l, replies := r :: s.replies } := by
  cases tg with
  | cmd =>
    simp only [State.writeTarget, State.offerCommand]
    cases decode w <;> rfl
  | _ => rfl

/-- No write changes SR (R24). -/
theorem writeTarget_sr (s : State) (tg : Target) (w : Word) : (s.writeTarget tg w).sr = s.sr := by
  cases tg with
  | cmd =>
    obtain ⟨_, -, he⟩ | ⟨_, -, he⟩ := offerCommand_cases s w <;> simp [State.writeTarget, he]
  | _ => rfl

/-- A write changes ERR by clearing bits written 1 to it, or by offering an illegal word (R28, R202). -/
theorem writeTarget_err (s : State) (tg : Target) (w : Word) :
    (s.writeTarget tg w).err = s.err ∨
      (tg = .err ∧ (s.writeTarget tg w).err = s.err &&& ~~~(w &&& 7#32)) ∨
      (tg = .cmd ∧ (∃ e, decode w = .error e) ∧ (s.writeTarget tg w).err = s.err ||| 1#32) := by
  cases tg with
  | err => exact .inr (.inl ⟨rfl, rfl⟩)
  | cmd =>
    obtain ⟨_, -, he⟩ | ⟨e, hd, he⟩ := offerCommand_cases s w
    · exact .inl (by simp [State.writeTarget, he])
    · exact .inr (.inr ⟨rfl, ⟨e, hd⟩, by simp [State.writeTarget, he]⟩)
  | _ => exact .inl rfl

/-- A write changes DONE by clearing it from STATUS, or by the acceptance of a command (R27, R201). -/
theorem writeTarget_done (s : State) (tg : Target) (w : Word) :
    (s.writeTarget tg w).done = s.done ∨
      (tg = .status ∧ (s.writeTarget tg w).done = (s.done && !w.getLsbD 1)) ∨
      (tg = .cmd ∧ (∃ i, decode w = .ok i) ∧ (s.writeTarget tg w).done = false) := by
  cases tg with
  | status => exact .inr (.inl ⟨rfl, rfl⟩)
  | cmd =>
    obtain ⟨i, hd, he⟩ | ⟨_, -, he⟩ := offerCommand_cases s w
    · exact .inr (.inr ⟨rfl, ⟨i, hd⟩, by simp [State.writeTarget, he]⟩)
    · exact .inl (by simp [State.writeTarget, he])
  | _ => exact .inl rfl

/-! ## What a step can do -/

/-- The effects a step of s can have on the block, each with the turn that has it. -/
inductive StepEffect (s : State) : State → Prop where
  /-- A bus error, a read, or the turn of an idle engine: the block is as before. -/
  | quiet (l : List Slot) (r : List Reply) :
      StepEffect s { s with schedule := l, replies := r }
  /-- An access that busy protection drops (R66). -/
  | dropped (kind : AccessKind) (off : Offset) (l : List Slot) (r : List Reply)
      (hbusy : s.busy = true) (hnext : s.schedule = .access ⟨kind, off, 4⟩ :: l)
      (hprot : protectedOffset off.toNat) :
      StepEffect s { s with err := s.err ||| 2#32, schedule := l, replies := r }
  /-- A write that is performed (R64). -/
  | write (off : Offset) (w : Word) (l : List Slot) (r : List Reply)
      (hnext : s.writesNext off w) (hfree : s.busy = true → ¬protectedOffset off.toNat) :
      StepEffect s { s.writeTarget (targetOf off.toNat) w with schedule := l, replies := r }
  /-- The completion step of the command in flight (R203). -/
  | completion (i : Instr) (l : List Slot) (t : State) (hc : s.completes i)
      (hexec : exec i { s with schedule := l } = .next t) : StepEffect s t
  /-- Reset (R230). -/
  | reset (l : List Slot) (r : List Reply) (hnext : s.resetNext) :
      StepEffect s { s.resetBlock with schedule := l, replies := r }

/-- What an access due in s can do. -/
theorem StepEffect.of_busAccess {s t : State} {a : Access} {l : List Slot}
    (hs : s.schedule = .access a :: l) (h : busAccess a { s with schedule := l } = .next t) :
    StepEffect s t := by
  obtain ⟨kind, off, size⟩ := a
  obtain ⟨-, rfl⟩ | ⟨hp, hbusy, hprot, rfl⟩ | ⟨hp, hfree, hhost⟩ := busAccess_next h
  · exact .quiet l _
  · obtain rfl : size = 4 := size_of_isPerformed hp
    exact .dropped kind off l _ hbusy hs ((isProtected_targetOf_iff _).mp hprot)
  · obtain rfl : size = 4 := size_of_isPerformed hp
    obtain ⟨v, -, -, rfl⟩ | ⟨w, hw, rfl⟩ := hostAccess_next hhost
    · exact .quiet l _
    · obtain rfl : kind = .write w := hw
      rw [answer_writeTarget]
      exact .write off w l _ ⟨l, hs⟩ fun hbusy hprot =>
        absurd ((isProtected_targetOf_iff _).mpr hprot) (Bool.eq_false_iff.mp (hfree hbusy))

/-- What the engine's turn can do when it is due in s. -/
theorem StepEffect.of_engineTurn {s t : State} {l : List Slot} (hm : s.engineMoves)
    (h : engineTurn { s with schedule := l } = .next t) : StepEffect s t := by
  obtain ⟨-, rfl⟩ | ⟨cur, i, hrun, hd, hexec⟩ := engineTurn_next h
  · exact .quiet l s.replies
  · exact .completion i l t ⟨hm, cur, hrun, hd⟩ hexec

/-- Every step that answers a next state has one of the effects. -/
theorem stepEffect {s t : State} (h : step s = .next t) : StepEffect s t := by
  obtain ⟨slot, u, hplayed, hturn⟩ := step_next h
  cases hplayed with
  | scheduled _ l hs =>
    obtain ⟨a, rfl, hacc⟩ | ⟨rfl, heng⟩ | ⟨rfl, rfl⟩ := hturn
    · exact .of_busAccess hs hacc
    · exact .of_engineTurn (.inr ⟨l, hs⟩) heng
    · exact .reset l s.replies ⟨l, hs⟩
  | exhausted hs =>
    obtain ⟨a, ha, -⟩ | ⟨-, heng⟩ | ⟨hr, -⟩ := hturn
    · cases ha
    · exact .of_engineTurn (l := s.schedule) (.inl hs) heng
    · cases hr

/-! ## The invariant (R26, R27, R28, R34, R62, R203) -/

/-- Setting bits outside a mask keeps the bits of the mask 0. -/
theorem or_and_mask {e bits mask : Word} (he : e &&& mask = 0#32) (hb : bits &&& mask = 0#32) :
    (e ||| bits) &&& mask = 0#32 := by
  rw [BitVec.and_or_distrib_right, he, hb, BitVec.or_self]

/-- Bits kept outside a mask leave the bits of the mask 0. -/
theorem and_and_mask_of_disjoint (w : Word) {keep mask : Word} (h : keep &&& mask = 0#32) :
    (w &&& keep) &&& mask = 0#32 := by
  rw [BitVec.and_assoc, h, BitVec.and_zero]

/-- Clearing bits keeps the bits of a mask 0. -/
theorem and_and_mask {e keep mask : Word} (he : e &&& mask = 0#32) :
    (e &&& keep) &&& mask = 0#32 := by
  rw [BitVec.and_assoc, BitVec.and_comm keep, ← BitVec.and_assoc, he, BitVec.zero_and]

/-- Flagging PRE keeps the reserved bits of ERR 0. -/
theorem flagPre_errReservedClear {s : State} (h : s.errReservedClear) (broken : Bool) :
    (s.flagPre broken).errReservedClear := by
  cases broken with
  | false => exact h
  | true => exact or_and_mask h (by decide)

/-- The reset state meets the invariant (R40). -/
theorem reset_inv : State.reset.Inv := ⟨reset_mem_wf, rfl, rfl, rfl, by decide⟩

/-- An accepted command is a legal one, and its acceptance clears DONE (R201). -/
theorem accept_inv {s : State} (hi : s.Inv) {w : Word} {i : Instr} (hd : decode w = .ok i) :
    (s.accept w).Inv := by
  obtain ⟨hmem, hctrl, herr, -, -⟩ := hi
  exact ⟨hmem, hctrl, herr, by simp [State.commandLegal, hd], by simp⟩

/-- Setting an ERR bit of 2:0 keeps the invariant. -/
theorem setErr_inv {s : State} (hi : s.Inv) {bits : Word} (hb : bits &&& 0xFFFFFFF8#32 = 0#32) :
    (s.setErr bits).Inv := by
  obtain ⟨hmem, hctrl, herr, hcmd, hbusy⟩ := hi
  exact ⟨hmem, hctrl, or_and_mask herr hb, hcmd, hbusy⟩

/-- Offering a word keeps the invariant, legal or not. -/
theorem offerCommand_inv {s : State} (hi : s.Inv) (w : Word) : (s.offerCommand w).Inv := by
  obtain ⟨i, hd, he⟩ | ⟨_, -, he⟩ := offerCommand_cases s w
  · rw [he]
    exact accept_inv hi hd
  · rw [he]
    exact setErr_inv hi (by decide)

/-- Every write of the host keeps the invariant. -/
theorem writeTarget_inv {s : State} (hi : s.Inv) {tg : Target} (w : Word)
    (hword : ∀ b i, tg = .bufWord b i → i < 256) : (s.writeTarget tg w).Inv := by
  have ⟨hmem, hctrl, herr, hcmd, hbd⟩ := hi
  cases tg with
  | ctrl => exact ⟨hmem, and_and_mask_of_disjoint w (by decide), herr, hcmd, hbd⟩
  | status =>
    exact ⟨hmem, hctrl, herr, hcmd, fun ⟨hb, hd⟩ => hbd ⟨hb, (Bool.and_eq_true_iff.mp hd).1⟩⟩
  | err => exact ⟨hmem, hctrl, and_and_mask herr, hcmd, hbd⟩
  | cmd => exact offerCommand_inv hi w
  | bufWord b i => exact ⟨writeBufWord_wf hmem b (hword b i rfl) w, hctrl, herr, hcmd, hbd⟩
  | _ => exact hi

/-- Every completion keeps the invariant: it leaves IDLE, and writes whole words of one buffer or none. -/
theorem exec_inv {i : Instr} {s t : State} (hi : s.Inv) (h : exec i s = .next t) : t.Inv := by
  obtain ⟨hmem, hctrl, herr, -, -⟩ := hi
  obtain ⟨-, F, ok, a, rfl⟩ | ⟨-, F, ok, b, xs, hl, rfl⟩ := exec_next h
  · exact ⟨hmem, hctrl, flagPre_errReservedClear herr (!ok a), rfl, by simp [State.busy]⟩
  · exact ⟨writeBuffer_wf hmem b _ (by simp [hl]), hctrl,
      flagPre_errReservedClear herr (xs.any fun a => !ok a), rfl, by simp [State.busy]⟩

/-- Settles O50: each effect a step can have keeps the invariant. -/
theorem everyStepKeepsTheInvariant : Obligations.EveryStepKeepsTheInvariant := by
  intro s t hi h
  cases stepEffect h with
  | quiet l r => exact hi
  | dropped kind off l r hbusy hnext hprot => exact setErr_inv hi (by decide)
  | write off w l r hnext hfree =>
    exact writeTarget_inv hi w fun b i hb => (targetOf_bufWord hb).2.2
  | completion i l t hc hexec => exact exec_inv (s := { s with schedule := l }) hi hexec
  | reset l r hnext => exact reset_inv

/-- Settles O51: nothing is written, flagged or in flight after reset. -/
theorem resetMeetsTheInvariant : Obligations.ResetMeetsTheInvariant := reset_inv

/-! ## SR (R24) -/

/-- Settles O52: no access writes SR, and a vector completion writes a buffer in its place. -/
theorem onlyScalarCompletionsWriteSr : Obligations.OnlyScalarCompletionsWriteSr := by
  intro s t h hsr
  cases stepEffect h with
  | quiet l r => exact absurd rfl hsr
  | dropped kind off l r hbusy hnext hprot => exact absurd rfl hsr
  | write off w l r hnext hfree => exact absurd (writeTarget_sr s _ w) hsr
  | completion i l t hc hexec =>
    obtain ⟨hscalar, -⟩ | ⟨-, F, ok, b, xs, -, rfl⟩ := exec_next hexec
    · exact .inl ⟨i, hc, hscalar⟩
    · exact absurd rfl hsr
  | reset l r hnext => exact .inr hnext

/-! ## DONE (R27) -/

/-- DONE is set by a completion alone. -/
theorem StepEffect.completes_of_done {s t : State} (h : StepEffect s t) (h0 : s.done = false)
    (h1 : t.done = true) : ∃ i, s.completes i := by
  cases h with
  | quiet l r => simp [h0] at h1
  | dropped kind off l r hbusy hnext hprot => simp [h0] at h1
  | write off w l r hnext hfree =>
    obtain hd | ⟨-, hd⟩ | ⟨-, -, hd⟩ := writeTarget_done s (targetOf off.toNat) w <;>
      simp [hd, h0] at h1
  | completion i l t hc hexec => exact ⟨i, hc⟩
  | reset l r hnext => cases h1

/-- A completion leaves DONE set (R203). -/
theorem exec_done {i : Instr} {s t : State} (h : exec i s = .next t) : t.done = true := by
  obtain ⟨-, F, ok, a, rfl⟩ | ⟨-, F, ok, b, xs, -, rfl⟩ := exec_next h <;> rfl

/-- A write that performs at CMD finds the engine idle (R39, R66). -/
theorem idle_of_write_cmd {s : State} {off : Offset}
    (hfree : s.busy = true → ¬protectedOffset off.toNat) (h : targetOf off.toNat = .cmd) :
    s.engine = .idle := by
  have hprot : protectedOffset off.toNat := (isProtected_targetOf_iff _).mp (by rw [h]; rfl)
  exact (busy_eq_false_iff s).mp (Bool.eq_false_iff.mpr fun hbusy => hfree hbusy hprot)

/-- DONE is cleared by reset, by a 1 written to it, or by the acceptance of a command. -/
theorem StepEffect.clears_done {s t : State} (h : StepEffect s t) (h1 : s.done = true)
    (h0 : t.done = false) :
    s.resetNext ∨ (∃ w, s.writesNext 0x004#13 w ∧ w.getLsbD 1 = true) ∨
      (s.engine = .idle ∧ ∃ w i, s.writesNext 0x00C#13 w ∧ decode w = .ok i) := by
  cases h with
  | quiet l r => simp [h1] at h0
  | dropped kind off l r hbusy hnext hprot => simp [h1] at h0
  | write off w l r hnext hfree =>
    obtain hd | ⟨htg, hd⟩ | ⟨htg, ⟨i, hw⟩, -⟩ := writeTarget_done s (targetOf off.toNat) w
    · simp [hd, h1] at h0
    · obtain rfl : off = 0x004#13 := eq_of_targetOf _ htg (by decide)
      exact .inr (.inl ⟨w, hnext, by simpa [h1] using hd.symm.trans h0⟩)
    · have hidle := idle_of_write_cmd hfree htg
      obtain rfl : off = 0x00C#13 := eq_of_targetOf _ htg (by decide)
      exact .inr (.inr ⟨hidle, w, i, hnext, hw⟩)
  | completion i l t hc hexec => simp [exec_done hexec] at h0
  | reset l r hnext => exact .inl hnext

/-- Settles O54: of all the effects of a step, a completion alone sets DONE, and two writes and reset clear it. -/
theorem doneAndItsEvents : Obligations.DoneAndItsEvents := fun _ _ h =>
  ⟨(stepEffect h).completes_of_done, (stepEffect h).clears_done⟩

/-! ## Preconditions and ERR.PRE (R125, R131, R204) -/

/-- A completion that flags PRE leaves ERR as R204 says, if `broken` says when to flag it. -/
theorem errAfter_of_flagPre {s t : State} {broken : Bool} {P : Prop}
    (ht : t.err = (s.flagPre broken).err) (hb : broken = true ↔ P) : errAfter s t P := by
  rw [flagPre_err] at ht
  exact ⟨fun hp => by rw [ht, if_pos (hb.mpr hp)], fun hp => by rw [ht, if_neg (mt hb.mp hp)]⟩

/-- An argument outside PreMRED breaks it. -/
theorem not_preMred_iff (a : Int) : (!preMred a) = true ↔ ¬withinMred a := by
  rw [withinMred, ← preMred_iff]
  simp

/-- An argument outside PreCADDQ breaks it. -/
theorem not_preCaddq_iff (a : Int) : (!preCaddq a) = true ↔ ¬withinCaddq a := by
  rw [withinCaddq, ← preCaddq_iff]
  simp

/-- No argument breaks a precondition that there is not (R129, R132). -/
theorem not_noPrecondition_iff (a : Int) : (!noPrecondition a) = true ↔ False := by
  simp [noPrecondition]

/-- Nor does one of several. -/
theorem any_not_noPrecondition_iff (xs : List Int) :
    (xs.any fun a => !noPrecondition a) = true ↔ False := by
  simp [noPrecondition]

/-- Some coefficient of a buffer has a property exactly when some word's signed value has it. -/
theorem any_coefficients_iff {s : State} {b : Buf} {xs : List Int}
    (hx : s.coefficients b = some xs) (p : Int → Bool) :
    xs.any p = true ↔ ∃ i < 256, ∃ x, s.readBufWord b i = some x ∧ p x.toInt = true := by
  obtain ⟨hl, hw⟩ := coefficients_getElem hx
  simp only [List.any_eq_true, List.mem_iff_getElem]
  constructor
  · rintro ⟨-, ⟨i, hi, rfl⟩, hp⟩
    obtain ⟨x, hr, he⟩ := hw i hi
    exact ⟨i, hl ▸ hi, x, hr, he ▸ hp⟩
  · rintro ⟨i, hi, x, hr, hp⟩
    obtain ⟨x', hr', he⟩ := hw i (hl ▸ hi)
    obtain rfl : x = x' := by simpa [hr] using hr'
    exact ⟨_, ⟨i, hl ▸ hi, rfl⟩, he ▸ hp⟩

/-- Some product of two buffers has a property exactly when the product of some two words at one index has it. -/
theorem any_products_iff {s : State} {b1 b2 : Buf} {ps : List Int}
    (hps : s.products b1 b2 = some ps) (p : Int → Bool) :
    ps.any p = true ↔ ∃ i < 256, ∃ x y, s.readBufWord b1 i = some x ∧
      s.readBufWord b2 i = some y ∧ p (x.toInt * y.toInt) = true := by
  obtain ⟨hl, hw⟩ := products_getElem hps
  simp only [List.any_eq_true, List.mem_iff_getElem]
  constructor
  · rintro ⟨-, ⟨i, hi, rfl⟩, hp⟩
    obtain ⟨x, y, hx, hy, he⟩ := hw i hi
    exact ⟨i, hl ▸ hi, x, y, hx, hy, he ▸ hp⟩
  · rintro ⟨i, hi, x, y, hx, hy, hp⟩
    obtain ⟨x', y', hx', hy', he⟩ := hw i (hl ▸ hi)
    obtain rfl : x = x' := by simpa [hx] using hx'
    obtain rfl : y = y' := by simpa [hy] using hy'
    exact ⟨_, ⟨i, hl ▸ hi, rfl⟩, he ▸ hp⟩

/-- Every completion leaves ERR with PRE set if an input broke its precondition, and as it was if none did (R204). -/
theorem exec_errAfter {i : Instr} {s t : State} (h : exec i s = .next t) :
    errAfter s t (s.breaksPrecondition i) := by
  cases i with
  | mred =>
    cases h
    refine errAfter_of_flagPre rfl ((not_preMred_iff _).trans ?_)
    rw [sa64_eq]
    rfl
  | red32 =>
    cases h
    exact errAfter_of_flagPre rfl (not_noPrecondition_iff s.sa32)
  | caddq =>
    cases h
    exact errAfter_of_flagPre rfl (not_preCaddq_iff _)
  | freeze =>
    cases h
    exact errAfter_of_flagPre rfl (not_noPrecondition_iff s.sa32)
  | mmul =>
    cases h
    exact errAfter_of_flagPre rfl (not_preMred_iff _)
  | vmmul rd rs1 rs2 =>
    obtain ⟨ps, hps, rfl⟩ := completeOrFault_next h
    refine errAfter_of_flagPre rfl ((any_products_iff hps _).trans ?_)
    simp only [not_preMred_iff]
    rfl
  | vred32 rd rs1 =>
    obtain ⟨xs, -, rfl⟩ := completeOrFault_next h
    exact errAfter_of_flagPre rfl (any_not_noPrecondition_iff xs)
  | vcaddq rd rs1 =>
    obtain ⟨xs, hx, rfl⟩ := completeOrFault_next h
    refine errAfter_of_flagPre rfl ((any_coefficients_iff hx _).trans ?_)
    simp only [not_preCaddq_iff]
    rfl
  | vfreeze rd rs1 =>
    obtain ⟨xs, -, rfl⟩ := completeOrFault_next h
    exact errAfter_of_flagPre rfl (any_not_noPrecondition_iff xs)

/-- Whether a command's inputs break its precondition does not depend on the schedule. -/
theorem breaksPrecondition_schedule (s : State) (l : List Slot) (i : Instr) :
    ({ s with schedule := l } : State).breaksPrecondition i = s.breaksPrecondition i := by
  cases i <;> rfl

/-! ## The ERR bits (R28, R205) -/

/-- What ERR can be after a step of s, each with the event that makes it so. -/
inductive ErrEffect (s : State) : Word → Prop where
  /-- No event touches ERR. -/
  | kept : ErrEffect s s.err
  /-- BUSYACC: busy protection drops an access (R66). -/
  | busyAccess (kind : AccessKind) (off : Offset) (l : List Slot) (hbusy : s.busy = true)
      (hnext : s.schedule = .access ⟨kind, off, 4⟩ :: l) (hprot : protectedOffset off.toNat) :
      ErrEffect s (s.err ||| 2#32)
  /-- The host writes ERR, and clears the bits written 1. -/
  | cleared (w : Word) (hnext : s.writesNext 0x008#13 w) :
      ErrEffect s (s.err &&& ~~~(w &&& 7#32))
  /-- ILLEGAL: an illegal word is offered while IDLE (R202). -/
  | illegal (w : Word) (e : Illegal) (hidle : s.engine = .idle)
      (hnext : s.writesNext 0x00C#13 w) (hd : decode w = .error e) : ErrEffect s (s.err ||| 1#32)
  /-- PRE: an input of the completing command breaks its precondition (R204). -/
  | precondition (i : Instr) (hc : s.completes i) (hb : s.breaksPrecondition i) :
      ErrEffect s (s.err ||| 4#32)
  /-- Reset (R230). -/
  | reset (hnext : s.resetNext) : ErrEffect s 0#32

/-- What a step does to ERR. -/
theorem StepEffect.errEffect {s t : State} (h : StepEffect s t) : ErrEffect s t.err := by
  cases h with
  | quiet l r => exact .kept
  | dropped kind off l r hbusy hnext hprot => exact .busyAccess kind off l hbusy hnext hprot
  | write off w l r hnext hfree =>
    obtain he | ⟨htg, he⟩ | ⟨htg, ⟨e, hd⟩, he⟩ := writeTarget_err s (targetOf off.toNat) w
    · simpa only [he] using ErrEffect.kept
    · obtain rfl : off = 0x008#13 := eq_of_targetOf _ htg (by decide)
      simpa only [he] using ErrEffect.cleared w hnext
    · have hidle := idle_of_write_cmd hfree htg
      obtain rfl : off = 0x00C#13 := eq_of_targetOf _ htg (by decide)
      simpa only [he] using ErrEffect.illegal w e hidle hnext hd
  | completion i l t hc hexec =>
    obtain ⟨hbroken, hmet⟩ := exec_errAfter hexec
    rw [breaksPrecondition_schedule] at hbroken hmet
    by_cases hb : s.breaksPrecondition i
    · rw [hbroken hb]
      exact .precondition i hc hb
    · rw [hmet hb]
      exact .kept
  | reset l r hnext => exact .reset hnext

/-- An ERR bit is cleared by a 1 written to it, or by reset. -/
theorem ErrEffect.clears {s : State} {e : Word} (h : ErrEffect s e) {k : Nat} (hk : k < 3)
    (h1 : s.err.getLsbD k = true) (h0 : e.getLsbD k = false) :
    s.resetNext ∨ ∃ w, s.writesNext 0x008#13 w ∧ w.getLsbD k = true := by
  cases h with
  | kept => simp [h1] at h0
  | busyAccess => simp [h1] at h0
  | cleared w hnext =>
    have hk32 : k < 32 := by omega
    have hone : w.getLsbD k = true ∧ (7#32).getLsbD k = true := by simpa [h1, hk32] using h0
    exact .inr ⟨w, hnext, hone.1⟩
  | illegal => simp [h1] at h0
  | precondition => simp [h1] at h0
  | reset hnext => exact .inl hnext

/-- ILLEGAL is set by an illegal word offered while IDLE. -/
theorem ErrEffect.sets_illegal {s : State} {e : Word} (h : ErrEffect s e)
    (h0 : s.err[0] = false) (h1 : e[0] = true) :
    s.engine = .idle ∧ ∃ w e, s.writesNext 0x00C#13 w ∧ decode w = .error e := by
  cases h with
  | illegal w e hidle hnext hd => exact ⟨hidle, w, e, hnext, hd⟩
  | _ => simp [h0] at h1

/-- BUSYACC is set by an access to a protected offset while RUN. -/
theorem ErrEffect.sets_busyacc {s : State} {e : Word} (h : ErrEffect s e)
    (h0 : s.err[1] = false) (h1 : e[1] = true) :
    (∃ cur, s.engine = .run cur) ∧ ∃ kind off rest,
      s.schedule = .access ⟨kind, off, 4⟩ :: rest ∧ protectedOffset off.toNat := by
  cases h with
  | busyAccess kind off l hbusy hnext hprot =>
    exact ⟨(busy_eq_true_iff s).mp hbusy, kind, off, l, hnext, hprot⟩
  | _ => simp [h0] at h1

/-- PRE is set by the completion of a command whose precondition an input broke. -/
theorem ErrEffect.sets_pre {s : State} {e : Word} (h : ErrEffect s e)
    (h0 : s.err[2] = false) (h1 : e[2] = true) :
    ∃ i, s.completes i ∧ s.breaksPrecondition i := by
  cases h with
  | precondition i hc hb => exact ⟨i, hc, hb⟩
  | _ => simp [h0] at h1

/-- Settles O53: each event of ErrEffect touches its own bit alone. -/
theorem errorBitsAndTheirEvents : Obligations.ErrorBitsAndTheirEvents := by
  intro s t h
  have he := (stepEffect h).errEffect
  exact ⟨fun _ hk => he.clears hk, he.sets_illegal, he.sets_busyacc, he.sets_pre⟩

/-! ## Accesses of the constant and the reserved offsets (R30 to R33) -/

/-- The access put before the schedule is the step. -/
theorem step_plan_access (s : State) (a : Access) :
    step (s.plan (.access a)) = busAccess a s := rfl

/-- An access that is performed and not protected goes through, idle or busy (R64, R66). -/
theorem busAccess_of_unprotected {a : Access} (hp : isPerformed a = true)
    (hu : isProtected (targetOf a.off.toNat) = false) (s : State) :
    busAccess a s = hostAccess a.kind (targetOf a.off.toNat) s := by
  simp [busAccess, hp, hu]

/-- A read of an unprotected offset answers what it names, idle or busy. -/
theorem readsAs_of_unprotected {s : State} {off : Offset} {tg : Target} {v : Word}
    (h4 : off.toNat % 4 = 0) (ht : targetOf off.toNat = tg) (hu : isProtected tg = false)
    (hv : s.readTarget tg = some v) : s.readsAs off v := by
  subst ht
  rw [State.readsAs, step_plan_access, busAccess_of_unprotected (by simp [isPerformed, h4]) hu]
  simp only [hostAccess, hv]
  rfl

/-- A write to an unprotected offset has its effect, idle or busy. -/
theorem writeLeaves_of_unprotected (s : State) {off : Offset} {tg : Target} (w : Word)
    (h4 : off.toNat % 4 = 0) (ht : targetOf off.toNat = tg) (hu : isProtected tg = false) :
    s.writeLeaves off w (s.writeTarget tg w) := by
  rw [State.writeLeaves, step_plan_access,
    busAccess_of_unprotected (by simp [isPerformed, h4]) (by rw [ht]; exact hu), ht]
  cases tg with
  | cmd => cases hu
  | _ => rfl

/-- The offsets of the constants read their words, whatever the state (R30 to R32). -/
theorem constants_readAs (s : State) :
    s.readsAs 0x020#13 0x007FE001#32 ∧ s.readsAs 0x024#13 0x03802001#32 ∧
      s.readsAs 0x028#13 0xFFC01DFF#32 :=
  ⟨readsAs_of_unprotected (tg := .constQ) rfl (by decide) rfl rfl,
    readsAs_of_unprotected (tg := .constQinv) rfl (by decide) rfl rfl,
    readsAs_of_unprotected (tg := .constMont) rfl (by decide) rfl rfl⟩

/-- Settles O40: the reserved target is outside the protected set, so busy protection never meets it. -/
theorem reservedOffsets : Obligations.ReservedOffsets := by
  intro s off w h4 hr
  have ht := targetOf_of_reserved hr
  exact ⟨readsAs_of_unprotected h4 ht rfl rfl, writeLeaves_of_unprotected s w h4 ht rfl⟩

/-- Settles O39: the constants are outside the protected set, and a write to one has no effect; the arithmetic is of closed terms. -/
theorem constantRegisters : Obligations.ConstantRegisters := by
  refine ⟨fun s w => ?_, by decide⟩
  obtain ⟨hq, hqinv, hmont⟩ := constants_readAs s
  exact ⟨hq, hqinv, hmont, writeLeaves_of_unprotected (tg := .constQ) s w rfl (by decide) rfl,
    writeLeaves_of_unprotected (tg := .constQinv) s w rfl (by decide) rfl,
    writeLeaves_of_unprotected (tg := .constMont) s w rfl (by decide) rfl⟩

/-! ## Busy protection (R39, R66, R72) -/

/-- t holds the operands, the result, the buffers and the command that s holds (R39). -/
def sameProtected (s t : State) : Prop :=
  t.saLo = s.saLo ∧ t.saHi = s.saHi ∧ t.sb = s.sb ∧ t.sr = s.sr ∧ t.mem = s.mem ∧
    t.engine = s.engine

/-- Every target outside the protected set has a value to read. -/
theorem readTarget_of_unprotected (s : State) {tg : Target} (hu : isProtected tg = false) :
    ∃ v, s.readTarget tg = some v := by
  cases tg with
  | bufWord b i => cases hu
  | _ => exact ⟨_, rfl⟩

/-- A write outside the protected set changes nothing of it. -/
theorem writeTarget_sameProtected (s : State) {tg : Target} (w : Word)
    (hu : isProtected tg = false) : sameProtected s (s.writeTarget tg w) := by
  cases tg with
  | cmd => cases hu
  | saLo => cases hu
  | saHi => cases hu
  | sb => cases hu
  | bufWord b i => cases hu
  | _ => exact ⟨rfl, rfl, rfl, rfl, rfl, rfl⟩

/-- An access that goes through outside the protected set answers a next state, and changes nothing of the set. -/
theorem hostAccess_sameProtected (s : State) (kind : AccessKind) {tg : Target}
    (hu : isProtected tg = false) :
    ∃ t, hostAccess kind tg s = .next t ∧ sameProtected s t := by
  cases kind with
  | read =>
    obtain ⟨v, hv⟩ := readTarget_of_unprotected s hu
    exact ⟨s.answer (.data v), by simp [hostAccess, hv], rfl, rfl, rfl, rfl, rfl, rfl⟩
  | write w => exact ⟨_, rfl, writeTarget_sameProtected s w hu⟩

/-- Settles O56: while RUN an access is not performed, is dropped, or goes to an unprotected target. -/
theorem operandsHoldWhileBusy : Obligations.OperandsHoldWhileBusy := by
  intro s cur a hrun
  have hbusy : s.busy = true := (busy_eq_true_iff s).mpr ⟨cur, hrun⟩
  rw [step_plan_access]
  cases hp : isPerformed a with
  | false => exact ⟨s.raiseBusError, by simp [busAccess, hp], rfl, rfl, rfl, rfl, rfl, rfl⟩
  | true =>
    cases hu : isProtected (targetOf a.off.toNat) with
    | true =>
      exact ⟨s.raiseBusyAccess a.kind, by simp [busAccess, hp, hbusy, hu],
        rfl, rfl, rfl, rfl, rfl, rfl⟩
    | false =>
      rw [busAccess_of_unprotected hp hu]
      exact hostAccess_sameProtected s a.kind hu

/-! ## irq and reset (R37, R40) -/

/-- Bit 1 of STATUS is DONE (R27). -/
theorem status_getLsbD_one (s : State) : s.status.getLsbD 1 = s.done := by
  unfold State.status
  cases s.busy <;> cases s.done <;> rfl

/-- Settles O47: the flags irq is computed from are the bits the words read. -/
theorem irqLevel : Obligations.IrqLevel := by
  intro s
  rw [status_getLsbD_one]
  rfl

/-- After reset no buffer word holds a value. -/
theorem reset_readBufWord (b : Buf) (i : Nat) : State.reset.readBufWord b i = none := rfl

/-- Settles O48: the registers are 0 by definition, and the constants read the same in every state. -/
theorem resetValues : Obligations.ResetValues :=
  ⟨rfl, rfl, rfl, rfl, rfl, rfl, rfl, rfl, rfl, rfl, reset_readBufWord, constants_readAs _⟩

end Sys2Proof.Machine
end

section
/-! PROOFS. The window (20_memory.md): platform addresses and offsets (R60, R69), the three answers of an access in the order of its checks (R62, R64, R66), what reads and writes of each register and of a buffer word do, idle or busy (R22 to R29, R63, R64), repeated accesses (R68), and a clear in the cycle of a completion (R71). -/

namespace Sys2Proof.Machine

/-! ## Platform addresses (R60, R69) -/

/-- The base is a whole number of windows (D2). -/
theorem base_mod_window : Config.base % 0x2000 = 0 := Nat.mul_mod_right _ _

/-- An address names an offset exactly when it is that offset's platform address. -/
theorem offsetOfPlatform_eq_some_iff (addr : Nat) (off : Offset) :
    offsetOfPlatform addr = some off ↔ addr = Config.platformAddress off := by
  have hlt := off.isLt
  unfold offsetOfPlatform Config.platformAddress
  by_cases hin : Config.base ≤ addr ∧ addr < Config.base + 0x2000
  · rw [if_pos hin, Option.some_inj, ← BitVec.toNat_inj, BitVec.toNat_ofNat]
    omega
  · rw [if_neg hin]
    simp only [reduceCtorEq, false_iff]
    omega

/-- Settles O32: the two directions of the correspondence of addresses and offsets. -/
theorem windowDecoding : Obligations.WindowDecoding :=
  ⟨base_mod_window, fun _ => (offsetOfPlatform_eq_some_iff _ _).mpr rfl,
    fun _ _ => (offsetOfPlatform_eq_some_iff _ _).mp⟩

/-! ## The answers of an access, in the order of its checks (R62, R66, R208) -/

/-- An access is performed exactly when it has size 4 and is aligned (R62). -/
theorem isPerformed_iff (a : Access) :
    isPerformed a = true ↔ a.size = 4 ∧ a.off.toNat % 4 = 0 := by
  simp [isPerformed]

/-- An access that is not performed is a bus error, idle or busy (R62). -/
theorem busAccess_of_not_performed {a : Access} (hp : isPerformed a = false) (s : State) :
    busAccess a s = .next s.raiseBusError := by
  simp [busAccess, hp]

/-- An access of a protected offset while BUSY = 1 is dropped (R66). -/
theorem busAccess_of_busy {s : State} {a : Access} (hp : isPerformed a = true)
    (hbusy : s.busy = true) (hprot : isProtected (targetOf a.off.toNat) = true) :
    busAccess a s = .next (s.raiseBusyAccess a.kind) := by
  simp [busAccess, hp, hbusy, hprot]

/-- An access that busy protection lets through is the access of what its offset names (R64). -/
theorem busAccess_of_free {s : State} {a : Access} (hp : isPerformed a = true)
    (hfree : s.busy = true → isProtected (targetOf a.off.toNat) = false) :
    busAccess a s = hostAccess a.kind (targetOf a.off.toNat) s := by
  cases hbusy : s.busy with
  | false => simp [busAccess, hp, hbusy]
  | true => exact busAccess_of_unprotected hp (hfree hbusy) s

/-- Settles O33: the size and alignment check comes first, and a bus error only answers. -/
theorem wrongSizeOrAlignmentIsBusError : Obligations.WrongSizeOrAlignmentIsBusError := by
  intro s a hbad
  have hp : isPerformed a = false := by
    rw [Bool.eq_false_iff, ne_eq, isPerformed_iff]
    omega
  exact ⟨.error, rfl, rfl, by rw [step_plan_access, busAccess_of_not_performed hp]; rfl⟩

/-- Settles O34: the answer to a dropped access is busyReply. -/
theorem busyAccessIsDropped : Obligations.BusyAccessIsDropped := by
  intro s cur a hrun hsize h4 hprot
  have hdrop : step (s.plan (.access a)) = .next (s.raiseBusyAccess a.kind) :=
    busAccess_of_busy ((isPerformed_iff a).mpr ⟨hsize, h4⟩)
      ((busy_eq_true_iff s).mpr ⟨cur, hrun⟩) ((isProtected_targetOf_iff _).mpr hprot)
  refine ⟨busyReply a.kind, ?_, fun hread => by rw [hread]; rfl, hdrop⟩
  cases a.kind <;> rfl

/-! ## Accesses while IDLE (R64) -/

/-- While IDLE every aligned 4-byte access goes through. -/
theorem step_plan_access_of_idle {s : State} {off : Offset} {tg : Target}
    (hidle : s.engine = .idle) (h4 : off.toNat % 4 = 0) (ht : targetOf off.toNat = tg)
    (kind : AccessKind) : step (s.plan (.access ⟨kind, off, 4⟩)) = hostAccess kind tg s := by
  subst ht
  have hbusy : s.busy = false := (busy_eq_false_iff s).mpr hidle
  rw [step_plan_access]
  exact busAccess_of_free ((isPerformed_iff _).mpr ⟨rfl, h4⟩) (by simp [hbusy])

/-- A read that goes through answers the word of its target. -/
theorem hostAccess_read {s : State} {tg : Target} {v : Word} (hv : s.readTarget tg = some v) :
    hostAccess .read tg s = .next (s.answer (.data v)) := by
  simp only [hostAccess, hv]

/-- Reading a target without a value is a fault of the run (R177). -/
theorem hostAccess_read_unwritten {s : State} {tg : Target} (hv : s.readTarget tg = none) :
    hostAccess .read tg s = .fault .unwrittenRead := by
  simp only [hostAccess, hv]

/-- While IDLE a read answers the word its target holds. -/
theorem readsAs_of_idle {s : State} {off : Offset} {tg : Target} {v : Word}
    (hidle : s.engine = .idle) (h4 : off.toNat % 4 = 0) (ht : targetOf off.toNat = tg)
    (hv : s.readTarget tg = some v) : s.readsAs off v :=
  (step_plan_access_of_idle hidle h4 ht .read).trans (hostAccess_read hv)

/-- A write leaves the replies to the turn it is part of. -/
theorem writeTarget_replies (s : State) (tg : Target) (w : Word) :
    (s.writeTarget tg w).replies = s.replies :=
  (List.cons.inj (congrArg State.replies (answer_writeTarget s s.schedule tg w .written))).2

/-- A write leaves the schedule to the turn it is part of. -/
theorem writeTarget_schedule (s : State) (tg : Target) (w : Word) :
    (s.writeTarget tg w).schedule = s.schedule :=
  (congrArg State.schedule (answer_writeTarget s s.schedule tg w .written) :)

/-- While IDLE a write has the effect of its target. -/
theorem writeLeaves_of_idle {s : State} {off : Offset} {tg : Target} (w : Word)
    (hidle : s.engine = .idle) (h4 : off.toNat % 4 = 0) (ht : targetOf off.toNat = tg) :
    s.writeLeaves off w (s.writeTarget tg w) := by
  rw [State.writeLeaves, step_plan_access_of_idle hidle h4 ht, ← writeTarget_replies s tg w]
  rfl

/-- The offset of word i of a buffer is aligned and names that word (R34, R64). -/
theorem aligned_and_targetOf_of_word {off : Offset} {b : Buf} {i : Nat} (hi : i < 256)
    (hoff : off.toNat = bufOffset b i) :
    off.toNat % 4 = 0 ∧ targetOf off.toNat = .bufWord b i := by
  rw [hoff]
  exact ⟨(bufOffset_bounds b hi).1, targetOf_bufOffset b hi⟩

/-- Settles O36: while IDLE each read is readTarget of what its offset names. -/
theorem idleReadsOfProtectedOffsets : Obligations.IdleReadsOfProtectedOffsets := by
  intro s hidle
  refine ⟨readsAs_of_idle (tg := .saLo) hidle rfl (by decide) rfl,
    readsAs_of_idle (tg := .saHi) hidle rfl (by decide) rfl,
    readsAs_of_idle (tg := .sb) hidle rfl (by decide) rfl,
    readsAs_of_idle (tg := .sr) hidle rfl (by decide) rfl,
    readsAs_of_idle (tg := .cmd) hidle rfl (by decide) rfl, fun b i off hi hoff => ?_⟩
  obtain ⟨h4, ht⟩ := aligned_and_targetOf_of_word hi hoff
  exact ⟨fun w hw => readsAs_of_idle hidle h4 ht hw, fun hnone =>
    (step_plan_access_of_idle hidle h4 ht .read).trans (hostAccess_read_unwritten hnone)⟩

/-- Byte j of a word, as R63 numbers its bits. -/
theorem wordByte_eq_ofNat (w : Word) (j : Nat) :
    wordByte w j = BitVec.ofNat 8 (w.toNat / 2 ^ (8 * j)) := by
  rw [wordByte, ← BitVec.toNat_inj, BitVec.extractLsb'_toNat, Nat.shiftRight_eq_div_pow,
    BitVec.toNat_ofNat]

/-- Settles O38: while IDLE each write is writeTarget of what its offset names, and a written word reads back byte by byte. -/
theorem idleWritesOfProtectedOffsets : Obligations.IdleWritesOfProtectedOffsets := by
  intro s w hidle
  refine ⟨writeLeaves_of_idle (tg := .saLo) w hidle rfl (by decide),
    writeLeaves_of_idle (tg := .saHi) w hidle rfl (by decide),
    writeLeaves_of_idle (tg := .sb) w hidle rfl (by decide),
    writeLeaves_of_idle (tg := .sr) w hidle rfl (by decide), fun b i off hi hoff => ?_⟩
  obtain ⟨h4, ht⟩ := aligned_and_targetOf_of_word hi hoff
  refine ⟨s.mem.writeWord (bufOffset b i) w, writeLeaves_of_idle w hidle h4 ht,
    readWord_writeWord_same _ _ _, fun j hj => ?_, fun o ho => ?_⟩
  · rw [readByte_writeWord, if_pos (by unfold bufOffset; omega), ← wordByte_eq_ofNat,
      show off.toNat + j - bufOffset b i = j by unfold bufOffset; omega]
  · rw [readByte_writeWord, if_neg (by unfold bufOffset; omega)]

/-! ## CTRL, STATUS and ERR, idle or busy (R26 to R28, R64) -/

/-- STATUS as the number BUSY + 2·DONE (R27, R36). -/
theorem status_toNat (s : State) :
    s.status.toNat = (if s.engine = .idle then 0 else 1) + (if s.done = true then 2 else 0) := by
  unfold State.status
  simp only [← busy_eq_false_iff]
  cases s.busy <;> cases s.done <;> rfl

/-- Settles O35: the three registers are outside the protected set. -/
theorem unprotectedReads : Obligations.UnprotectedReads := fun s =>
  ⟨readsAs_of_unprotected (tg := .ctrl) rfl (by decide) rfl rfl,
    readsAs_of_unprotected (tg := .err) rfl (by decide) rfl rfl,
    s.status, readsAs_of_unprotected (tg := .status) rfl (by decide) rfl rfl, status_toNat s⟩

/-- CTRL takes bits 1:0 of the word (R26). -/
theorem writeCtrl_toNat (s : State) (w : Word) : (s.writeCtrl w).ctrl.toNat = w.toNat % 4 :=
  Nat.and_two_pow_sub_one_eq_mod w.toNat 2

/-- A 1 written to bit 1 clears DONE, a 0 keeps it (R27). -/
theorem writeStatus_eq (s : State) (w : Word) :
    s.writeStatus w = { s with done := if w.getLsbD 1 then false else s.done } := by
  unfold State.writeStatus
  cases w.getLsbD 1 <;> simp

/-- A 1 written to one of bits 2:0 of ERR clears it; every other bit is kept (R28). -/
theorem writeErr_getLsbD (s : State) (w : Word) (k : Nat) :
    (s.writeErr w).err.getLsbD k = (s.err.getLsbD k && !(w.getLsbD k && decide (k < 3))) := by
  have hmask : (7#32).getLsbD k = decide (k < 3) := by
    rw [BitVec.getLsbD_ofNat, show 7 = 2 ^ 3 - 1 from rfl, Nat.testBit_two_pow_sub_one]
    by_cases hk : k < 3
    · simp [hk, show k < 32 by omega]
    · simp [hk]
  rw [writeErr_err, BitVec.getLsbD_and, BitVec.getLsbD_not, BitVec.getLsbD_and, hmask]
  by_cases hk : k < 32
  · simp [hk]
  · simp [BitVec.getLsbD_of_ge s.err k (by omega)]

/-- Settles O37: the three registers are outside the protected set, so their writes always have their effect. -/
theorem unprotectedWrites : Obligations.UnprotectedWrites := fun s w => by
  refine ⟨⟨_, writeLeaves_of_unprotected (tg := .ctrl) s w rfl (by decide) rfl,
      writeCtrl_toNat s w⟩, ?_,
    _, writeLeaves_of_unprotected (tg := .err) s w rfl (by decide) rfl, fun k hk => ?_,
    fun k hk => ?_⟩
  · rw [← writeStatus_eq]
    exact writeLeaves_of_unprotected (tg := .status) s w rfl (by decide) rfl
  · exact (writeErr_getLsbD s w k).trans (by simp [hk])
  · exact (writeErr_getLsbD s w k).trans (by simp [hk])

/-! ## Repeated accesses (R68) -/

/-- A byte is written before a cell of a higher offset. -/
theorem writeByte_cons_of_lt {c : Host.Cell} {a : Nat} (h : a < c.1) (m : Memory) (b : Byte) :
    Memory.writeByte (c :: m) a b = (a, b) :: c :: m := by
  rw [writeByte_cons, if_pos h]

/-- A byte is written in place of a cell of its offset. -/
theorem writeByte_cons_same (c : Host.Cell) (m : Memory) (b : Byte) :
    Memory.writeByte (c :: m) c.1 b = (c.1, b) :: m := by
  rw [writeByte_cons, if_neg (Nat.lt_irrefl _), if_pos rfl]

/-- A byte is written after a cell of a lower offset. -/
theorem writeByte_cons_of_gt {c : Host.Cell} {a : Nat} (h : c.1 < a) (m : Memory) (b : Byte) :
    Memory.writeByte (c :: m) a b = c :: m.writeByte a b := by
  rw [writeByte_cons, if_neg (Nat.lt_asymm h), if_neg (Nat.ne_of_lt h)]

/-- Writing a byte a second time changes nothing, whatever the order of the offsets. -/
theorem writeByte_writeByte_same (m : Memory) (a : Nat) (b : Byte) :
    (m.writeByte a b).writeByte a b = m.writeByte a b := by
  induction m with
  | nil => exact writeByte_cons_same (a, b) [] b
  | cons c m ih =>
    obtain hlt | rfl | hgt := Nat.lt_trichotomy a c.1
    · rw [writeByte_cons_of_lt hlt]
      exact writeByte_cons_same (a, b) (c :: m) b
    · rw [writeByte_cons_same]
      exact writeByte_cons_same (c.1, b) m b
    · rw [writeByte_cons_of_gt hgt, writeByte_cons_of_gt hgt, ih]

/-- If writing a byte changes nothing, it changes nothing after the write of another byte either. -/
theorem writeByte_eq_self_of_writeByte {m : Memory} {a a' : Nat} {b : Byte} (b' : Byte)
    (hne : a ≠ a') (h : m.writeByte a b = m) :
    (m.writeByte a' b').writeByte a b = m.writeByte a' b' := by
  induction m with
  | nil => cases h
  | cons c m ih =>
    have hhead : a = c.1 ∨ c.1 < a ∧ Memory.writeByte m a b = m := by
      obtain hlt | heq | hgt := Nat.lt_trichotomy a c.1
      · rw [writeByte_cons_of_lt hlt] at h
        exact absurd (congrArg List.length h) (by simp)
      · exact .inl heq
      · rw [writeByte_cons_of_gt hgt] at h
        exact .inr ⟨hgt, (List.cons.inj h).2⟩
    obtain hlt' | rfl | hgt' := Nat.lt_trichotomy a' c.1
    · rw [writeByte_cons_of_lt hlt', writeByte_cons_of_gt (show a' < a by omega), h]
    · obtain heq | ⟨hgt, hm⟩ := hhead
      · exact absurd heq hne
      · rw [writeByte_cons_same, writeByte_cons_of_gt (c := (c.1, b')) hgt, hm]
    · rw [writeByte_cons_of_gt hgt']
      obtain rfl | ⟨hgt, hm⟩ := hhead
      · rw [writeByte_cons_same] at h ⊢
        rw [(List.cons.inj h).1]
      · rw [writeByte_cons_of_gt hgt, ih hm]

/-- Writing a word a second time changes nothing: none of its bytes is displaced by the writes after it. -/
theorem writeWord_writeWord_same (m : Memory) (a : Nat) (w : Word) :
    (m.writeWord a w).writeWord a w = m.writeWord a w := by
  have hkeep : ∀ {m : Memory} {i j : Nat} {b : Byte} (b' : Byte), i ≠ j →
      m.writeByte (a + i) b = m → (m.writeByte (a + j) b').writeByte (a + i) b =
        m.writeByte (a + j) b' := fun b' hne => writeByte_eq_self_of_writeByte b' (by omega)
  have hself : ∀ j < 4,
      (m.writeWord a w).writeByte (a + j) (wordByte w j) = m.writeWord a w :=
    forall_byte_iff.mpr
      ⟨hkeep _ (by decide) (hkeep _ (by decide) (hkeep _ (by decide) (writeByte_writeByte_same ..))),
        hkeep _ (by decide) (hkeep _ (by decide) (writeByte_writeByte_same ..)),
        hkeep _ (by decide) (writeByte_writeByte_same ..), writeByte_writeByte_same ..⟩
  obtain ⟨h0, h1, h2, h3⟩ := forall_byte_iff.mp hself
  calc (m.writeWord a w).writeWord a w
      = ((((m.writeWord a w).writeByte (a + 0) (wordByte w 0)).writeByte (a + 1)
          (wordByte w 1)).writeByte (a + 2) (wordByte w 2)).writeByte (a + 3) (wordByte w 3) := rfl
    _ = m.writeWord a w := by rw [h0, h1, h2, h3]

/-- A repeated write has no further effect, except at CMD (R68). -/
theorem writeTarget_writeTarget_same (s : State) {tg : Target} (w : Word) (hcmd : tg ≠ .cmd) :
    (s.writeTarget tg w).writeTarget tg w = s.writeTarget tg w := by
  cases tg with
  | cmd => exact absurd rfl hcmd
  | status => simp [State.writeTarget, State.writeStatus]
  | err => simp [State.writeTarget, State.writeErr, BitVec.and_assoc]
  | bufWord b i =>
    simp only [State.writeTarget, State.writeBufWord, writeWord_writeWord_same]
  | _ => rfl

/-- A write does not depend on the answers given so far. -/
theorem writeTarget_answer (s : State) (tg : Target) (w : Word) (r : Reply) :
    (s.answer r).writeTarget tg w = (s.writeTarget tg w).answer r := by
  cases tg with
  | cmd =>
    simp only [State.writeTarget, State.offerCommand]
    cases decode w <;> rfl
  | _ => rfl

/-- A read does not depend on the answers given so far. -/
theorem readTarget_answer (s : State) (tg : Target) (r : Reply) :
    (s.answer r).readTarget tg = s.readTarget tg := by
  cases tg <;> rfl

/-- A write of any target but CMD leaves the engine alone. -/
theorem writeTarget_busy (s : State) {tg : Target} (w : Word) (hcmd : tg ≠ .cmd) :
    (s.writeTarget tg w).busy = s.busy := by
  cases tg with
  | cmd => exact absurd rfl hcmd
  | _ => rfl

/-- An access of CMD is an access of its one offset (R25). -/
theorem targetOf_ne_cmd {off : Offset} (h : off ≠ 0x00C#13) : targetOf off.toNat ≠ .cmd :=
  fun ht => h (eq_of_targetOf _ ht (by decide))

/-- An access of any target but CMD that went through goes through again and leaves the same block (R68). -/
theorem hostAccess_repeated {kind : AccessKind} {tg : Target} {s t : State}
    (hcmd : ∀ w, kind = .write w → tg ≠ .cmd) (h : hostAccess kind tg s = .next t) :
    t.busy = s.busy ∧ ∃ r, hostAccess kind tg t = .next { t with replies := r } := by
  obtain ⟨v, rfl, hv, rfl⟩ | ⟨w, rfl, rfl⟩ := hostAccess_next h
  · exact ⟨rfl, .data v :: .data v :: s.replies,
      hostAccess_read ((readTarget_answer s tg _).trans hv)⟩
  · have htg := hcmd w rfl
    refine ⟨writeTarget_busy s w htg, .written :: .written :: (s.writeTarget tg w).replies, ?_⟩
    have hw : ((s.writeTarget tg w).answer .written).writeTarget tg w =
        (s.writeTarget tg w).answer .written := by
      rw [writeTarget_answer, writeTarget_writeTarget_same s w htg]
    rw [hostAccess, hw]
    rfl

/-- A read while IDLE leaves the block as it was (R64). -/
theorem busAccess_read_of_idle {s t : State} {off : Offset} {size : Nat} (hidle : s.engine = .idle)
    (h : busAccess ⟨.read, off, size⟩ s = .next t) : t = { s with replies := t.replies } := by
  obtain ⟨-, rfl⟩ | ⟨-, hbusy, -⟩ | ⟨-, -, hhost⟩ := busAccess_next h
  · rfl
  · rw [(busy_eq_false_iff s).mpr hidle] at hbusy
    cases hbusy
  · obtain ⟨v, -, -, rfl⟩ | ⟨w, hw, -⟩ := hostAccess_next hhost
    · rfl
    · cases hw

/-- Settles O41: each of the three answers an access can get, it gets again, with the same effect. -/
theorem repeatedAccessIsIdempotent : Obligations.RepeatedAccessIsIdempotent := by
  refine ⟨fun s t a hcmd h => ?_, fun s t off size hidle h => busAccess_read_of_idle hidle h⟩
  rw [step_plan_access] at h ⊢
  obtain ⟨hp, rfl⟩ | ⟨hp, hbusy, hprot, rfl⟩ | ⟨hp, hfree, hhost⟩ := busAccess_next h
  · exact ⟨_, busAccess_of_not_performed hp _, rfl⟩
  · refine ⟨_, busAccess_of_busy hp hbusy hprot, ?_⟩
    simp [State.raiseBusyAccess, State.setErr, State.answer, BitVec.or_assoc]
  · obtain ⟨hb, r, hr⟩ := hostAccess_repeated (fun w hw => targetOf_ne_cmd (hcmd w hw)) hhost
    exact ⟨_, (busAccess_of_free hp (hb ▸ hfree)).trans hr, rfl⟩

/-! ## Which commands complete (R177) -/

/-- A vector completion answers a next state exactly when its arguments could be read. -/
theorem completeOrFault_next_iff (F : Int → Int) (ok : Int → Bool) (rd : Buf)
    (args : Option (List Int)) (s : State) :
    (∃ t, completeOrFault F ok rd args s = .next t) ↔ args.isSome = true := by
  cases args <;> simp [completeOrFault]

/-- A command completes exactly when every word it reads has been written. -/
theorem exec_next_iff_sourcesWritten (i : Instr) (s : State) :
    (∃ t, exec i s = .next t) ↔ s.sourcesWritten i := by
  cases i with
  | vmmul rd rs1 rs2 =>
    exact (completeOrFault_next_iff ..).trans ((products_isSome s rs1 rs2).trans
      (and_congr (coefficients_isSome s rs1) (coefficients_isSome s rs2)))
  | vred32 rd rs1 => exact (completeOrFault_next_iff ..).trans (coefficients_isSome s rs1)
  | vcaddq rd rs1 => exact (completeOrFault_next_iff ..).trans (coefficients_isSome s rs1)
  | vfreeze rd rs1 => exact (completeOrFault_next_iff ..).trans (coefficients_isSome s rs1)
  | _ => exact ⟨fun _ => trivial, fun _ => ⟨_, rfl⟩⟩

/-! ## A clear in the cycle of a completion (R71, D22) -/

/-- Which words are written is a matter of the buffers alone. -/
theorem sourcesWritten_congr {s u : State} (hm : u.mem = s.mem) (i : Instr) :
    u.sourcesWritten i ↔ s.sourcesWritten i := by
  cases i <;> simp only [State.sourcesWritten, State.bufferWritten, State.readBufWord, hm]

/-- Whether an input breaks the precondition is a matter of the operands and the buffers. -/
theorem breaksPrecondition_congr {s u : State} (h : sameProtected s u) (i : Instr) :
    u.breaksPrecondition i ↔ s.breaksPrecondition i := by
  obtain ⟨hlo, hhi, hsb, -, hm, -⟩ := h
  cases i <;>
    simp only [State.breaksPrecondition, State.saValue, State.readBufWord, hlo, hhi, hsb, hm]

/-- The engine's turn, when it is due, completes the command in flight if its sources are written (R203). -/
theorem step_completes {s : State} {l : List Slot} {cur : Word} {i : Instr}
    (hl : s.schedule = .engine :: l) (hrun : s.engine = .run cur) (hd : decode cur = .ok i)
    (hsrc : s.sourcesWritten i) :
    ∃ t, step s = .next t ∧ exec i { s with schedule := l } = .next t := by
  obtain ⟨t, hexec⟩ := (exec_next_iff_sourcesWritten i { s with schedule := l }).mpr
    ((sourcesWritten_congr rfl i).mpr hsrc)
  exact ⟨t, by simpa only [step, nextTurn, hl, turn, engineTurn, hrun, hd] using hexec, hexec⟩

/-- A write outside the protected set, and then the completion of the command in flight: the completion finds the operands and the buffers that the write found. -/
theorem run_write_completion {s : State} {cur : Word} {i : Instr} {off : Offset} {tg : Target}
    (w : Word) (hrun : s.engine = .run cur) (hd : decode cur = .ok i) (hsrc : s.sourcesWritten i)
    (h4 : off.toNat % 4 = 0) (ht : targetOf off.toNat = tg) (hu : isProtected tg = false) :
    ∃ u t, sameProtected s u ∧ exec i u = .next t ∧
      run 2 ((s.plan .engine).plan (.access ⟨.write w, off, 4⟩)) = .next t := by
  have hwrite := writeLeaves_of_unprotected (s.plan .engine) w h4 ht hu
  have hsame := writeTarget_sameProtected (s.plan .engine) w hu
  have hdue := writeTarget_schedule (s.plan .engine) tg w
  generalize (s.plan .engine).writeTarget tg w = v at hwrite hsame hdue
  have ⟨_, _, _, _, hmem, hengine⟩ := hsame
  obtain ⟨t, hstep, hexec⟩ := step_completes (s := { v with replies := .written :: s.replies })
    hdue (hengine.trans hrun) hd ((sourcesWritten_congr hmem i).mpr hsrc)
  exact ⟨{ v with schedule := s.schedule, replies := .written :: s.replies }, t, hsame, hexec,
    (run_succ 1 hwrite).trans (run_succ 0 hstep)⟩

/-- Settles O58: the completion comes after the write, so what it sets stays set. -/
theorem setWinsOverClear : Obligations.SetWinsOverClear := by
  intro s cur i w hrun hd hsrc
  constructor
  · obtain ⟨u, t, -, hexec, hr⟩ :=
      run_write_completion (tg := .status) w hrun hd hsrc (off := 0x004#13) rfl (by decide) rfl
    exact ⟨t, hr, exec_done hexec⟩
  · intro hbroken
    obtain ⟨u, t, hsame, hexec, hr⟩ :=
      run_write_completion (tg := .err) w hrun hd hsrc (off := 0x008#13) rfl (by decide) rfl
    have herr : t.err = u.err ||| 4#32 :=
      (exec_errAfter hexec).1 ((breaksPrecondition_congr hsame i).mpr hbroken)
    exact ⟨t, hr, by simp [State.pre, herr]⟩

end Sys2Proof.Machine
end

section
/-! PROOFS. The encoding of commands (30_encoding.md): the fields of a word (R91), the three checks of R95 in terms of the fields (R92, R93, R96), what the decoder answers on every word, said once, and from it that decoding and encoding are inverse (R98), which words the rows of the opcode map match (R94), and how many words are legal (R97). -/

namespace Sys2Proof

open Machine

/-! ## The fields of a word (R91) -/

theorem toNat_fieldOp (w : Word) : (fieldOp w).toNat = w.toNat % 2 ^ 8 := by
  simp [fieldOp]

theorem toNat_fieldRd (w : Word) : (fieldRd w).toNat = w.toNat / 2 ^ 8 % 2 ^ 2 := by
  simp [fieldRd, Nat.shiftRight_eq_div_pow]

theorem toNat_fieldRs1 (w : Word) : (fieldRs1 w).toNat = w.toNat / 2 ^ 10 % 2 ^ 2 := by
  simp [fieldRs1, Nat.shiftRight_eq_div_pow]

theorem toNat_fieldRs2 (w : Word) : (fieldRs2 w).toNat = w.toNat / 2 ^ 12 % 2 ^ 2 := by
  simp [fieldRs2, Nat.shiftRight_eq_div_pow]

theorem toNat_fieldIndexes (w : Word) : (fieldIndexes w).toNat = w.toNat / 2 ^ 8 % 2 ^ 6 := by
  simp [fieldIndexes, Nat.shiftRight_eq_div_pow]

theorem toNat_fieldRsv (w : Word) : (fieldRsv w).toNat = w.toNat / 2 ^ 14 % 2 ^ 18 := by
  simp [fieldRsv, Nat.shiftRight_eq_div_pow]

/-- A concatenation as a sum. -/
theorem toNat_append_eq_add {n m : Nat} (x : BitVec n) (y : BitVec m) :
    (x ++ y).toNat = x.toNat * 2 ^ m + y.toNat := by
  rw [BitVec.toNat_append, ← Nat.shiftLeft_add_eq_or_of_lt y.isLt, Nat.shiftLeft_eq]

/-- The layout of R91 as a sum. -/
theorem toNat_commandWord (rs2 rs1 rd : BitVec 2) (op : BitVec 8) :
    (commandWord rs2 rs1 rd op).toNat =
      op.toNat + rd.toNat * 2 ^ 8 + rs1.toNat * 2 ^ 10 + rs2.toNat * 2 ^ 12 := by
  simp only [commandWord, toNat_append_eq_add, BitVec.toNat_ofNat]
  omega

/-- The five fields of R91 cover a word. -/
theorem eq_iff_fields (v w : Word) :
    v = w ↔ fieldRsv v = fieldRsv w ∧ fieldRs2 v = fieldRs2 w ∧ fieldRs1 v = fieldRs1 w ∧
      fieldRd v = fieldRd w ∧ fieldOp v = fieldOp w := by
  have hv := v.isLt
  have hw := w.isLt
  simp only [← BitVec.toNat_inj, toNat_fieldRsv, toNat_fieldRs2, toNat_fieldRs1, toNat_fieldRd,
    toNat_fieldOp]
  omega

theorem commandWord_eq_iff (rs2 rs1 rd : BitVec 2) (op : BitVec 8) (w : Word) :
    commandWord rs2 rs1 rd op = w ↔
      fieldRsv w = 0#18 ∧ fieldRs2 w = rs2 ∧ fieldRs1 w = rs1 ∧ fieldRd w = rd ∧
        fieldOp w = op := by
  have hw := w.isLt
  have hrs2 := rs2.isLt
  have hrs1 := rs1.isLt
  have hrd := rd.isLt
  have hop := op.isLt
  simp only [← BitVec.toNat_inj, toNat_fieldRsv, toNat_fieldRs2, toNat_fieldRs1, toNat_fieldRd,
    toNat_fieldOp, toNat_commandWord, BitVec.toNat_ofNat]
  omega

/-- The fields of a command word are the values it is laid out from. -/
@[simp] theorem fields_commandWord (rs2 rs1 rd : BitVec 2) (op : BitVec 8) :
    fieldRsv (commandWord rs2 rs1 rd op) = 0#18 ∧ fieldRs2 (commandWord rs2 rs1 rd op) = rs2 ∧
      fieldRs1 (commandWord rs2 rs1 rd op) = rs1 ∧ fieldRd (commandWord rs2 rs1 rd op) = rd ∧
      fieldOp (commandWord rs2 rs1 rd op) = op :=
  (commandWord_eq_iff ..).mp rfl

/-- Bits 13:8 are the three index fields. -/
theorem fieldIndexes_eq_zero_iff (w : Word) :
    fieldIndexes w = 0#6 ↔ fieldRs2 w = 0#2 ∧ fieldRs1 w = 0#2 ∧ fieldRd w = 0#2 := by
  simp only [← BitVec.toNat_inj, toNat_fieldIndexes, toNat_fieldRs2, toNat_fieldRs1,
    toNat_fieldRd, BitVec.toNat_ofNat]
  omega

/-- A mask acts on each field by its own part. -/
theorem and_eq_iff_fields (w m p : Word) :
    w &&& m = p ↔ fieldRsv w &&& fieldRsv m = fieldRsv p ∧
      fieldRs2 w &&& fieldRs2 m = fieldRs2 p ∧ fieldRs1 w &&& fieldRs1 m = fieldRs1 p ∧
      fieldRd w &&& fieldRd m = fieldRd p ∧ fieldOp w &&& fieldOp m = fieldOp p := by
  rw [eq_iff_fields]
  simp only [fieldRsv, fieldRs2, fieldRs1, fieldRd, fieldOp, BitVec.extractLsb'_and]

/-! A mask that is all ones on RSV, on an index field or on OP keeps that field. -/

@[simp] theorem and_onesRsv (x : BitVec 18) : x &&& 0x3FFFF#18 = x := BitVec.and_allOnes

@[simp] theorem and_onesIndex (k : BitVec 2) : k &&& 3#2 = k := BitVec.and_allOnes

@[simp] theorem and_onesOp (op : BitVec 8) : op &&& 0xFF#8 = op := BitVec.and_allOnes

/-! ## Index fields and buffers (R93) -/

@[simp] theorem Buf.ofField_field (b : Buf) : Buf.ofField b.field = b := by cases b <;> rfl

@[simp] theorem Buf.field_ofField (k : BitVec 2) : (Buf.ofField k).field = k := by
  revert k
  decide

theorem Buf.toNat_field (b : Buf) : b.field.toNat = bufIndex b := by cases b <;> rfl

/-! ## The three checks, field by field (R95, R96) -/

/-- Check 1 is of RSV. -/
theorem reservedBitsClear_iff (w : Word) : reservedBitsClear w = true ↔ fieldRsv w = 0#18 := by
  have hw := w.isLt
  rw [reservedBitsClear, beq_iff_eq, ← BitVec.toNat_inj, ← BitVec.toNat_inj, toNat_fieldRsv,
    BitVec.toNat_ushiftRight, Nat.shiftRight_eq_div_pow, BitVec.toNat_ofNat, BitVec.toNat_ofNat]
  omega

theorem toNat_and_0xFF (w : Word) : (w &&& 0xFF#32).toNat = (fieldOp w).toNat := by
  rw [toNat_fieldOp]
  exact Nat.and_two_pow_sub_one_eq_mod w.toNat 8

/-- Check 2 is whether OP is the opcode of a command. -/
theorem opcodeAssigned_iff (w : Word) :
    opcodeAssigned w = true ↔ ∃ i : Instr, fieldOp w = i.opcode := by
  simp only [opcodeAssigned, toNat_and_0xFF, Bool.or_eq_true, decide_eq_true_iff,
    ← BitVec.toNat_inj]
  constructor
  · intro h
    obtain h | h | h | h | h | h | h | h | h : (fieldOp w).toNat = 1 ∨ (fieldOp w).toNat = 2 ∨
        (fieldOp w).toNat = 3 ∨ (fieldOp w).toNat = 4 ∨ (fieldOp w).toNat = 5 ∨
        (fieldOp w).toNat = 0x11 ∨ (fieldOp w).toNat = 0x12 ∨ (fieldOp w).toNat = 0x13 ∨
        (fieldOp w).toNat = 0x14 := by omega
    · exact ⟨.mred, h⟩
    · exact ⟨.red32, h⟩
    · exact ⟨.caddq, h⟩
    · exact ⟨.freeze, h⟩
    · exact ⟨.mmul, h⟩
    · exact ⟨.vmmul .p0 .p0 .p0, h⟩
    · exact ⟨.vred32 .p0 .p0, h⟩
    · exact ⟨.vcaddq .p0 .p0, h⟩
    · exact ⟨.vfreeze .p0 .p0, h⟩
  · rintro ⟨i, h⟩
    cases i <;> simp [h, Instr.opcode]

/-- Which fields are unused is a matter of OP: its bit 4 is the class bit (R92). -/
theorem unusedFields_eq (w : Word) :
    unusedFields w = if fieldOp w &&& 0x10#8 = 0#8 then 0x3F00#32
      else if fieldOp w = 0x11#8 then 0#32 else 0x3000#32 := by
  have hclass : w &&& 0x10#32 = 0#32 ↔ fieldOp w &&& 0x10#8 = 0#8 := by
    rw [and_eq_iff_fields]
    simp [fieldRsv, fieldRs2, fieldRs1, fieldRd, fieldOp]
  have hop : w &&& 0xFF#32 = 0x11#32 ↔ fieldOp w = 0x11#8 := by
    rw [and_eq_iff_fields]
    simp [fieldRsv, fieldRs2, fieldRs1, fieldRd, fieldOp]
  simp only [unusedFields, hclass, hop]

theorem and_0x3F00_eq_zero_iff (w : Word) : w &&& 0x3F00#32 = 0#32 ↔ fieldIndexes w = 0#6 := by
  rw [and_eq_iff_fields, fieldIndexes_eq_zero_iff]
  simp [fieldRsv, fieldRs2, fieldRs1, fieldRd, fieldOp]

theorem and_0x3000_eq_zero_iff (w : Word) : w &&& 0x3000#32 = 0#32 ↔ fieldRs2 w = 0#2 := by
  rw [and_eq_iff_fields]
  simp [fieldRsv, fieldRs2, fieldRs1, fieldRd, fieldOp]

/-- Check 3 is of bits 13:8 for a scalar opcode, of RS2 for a unary vector opcode, of nothing for VMMUL. -/
theorem unusedFieldsClear_iff (w : Word) :
    unusedFieldsClear w = true ↔
      if fieldOp w &&& 0x10#8 = 0#8 then fieldIndexes w = 0#6
      else fieldOp w = 0x11#8 ∨ fieldRs2 w = 0#2 := by
  rw [unusedFieldsClear, beq_iff_eq, unusedFields_eq]
  split_ifs with hclass hop
  · exact and_0x3F00_eq_zero_iff w
  · simp [hop]
  · simp [hop, and_0x3000_eq_zero_iff]

/-! ## What the decoder answers (R95) -/

/-- The command of i's opcode whose operands are the index fields of w. -/
def Instr.withOperands (w : Word) : Instr → Instr
  | .vmmul _ _ _ =>
    .vmmul (Buf.ofField (fieldRd w)) (Buf.ofField (fieldRs1 w)) (Buf.ofField (fieldRs2 w))
  | .vred32 _ _ => .vred32 (Buf.ofField (fieldRd w)) (Buf.ofField (fieldRs1 w))
  | .vcaddq _ _ => .vcaddq (Buf.ofField (fieldRd w)) (Buf.ofField (fieldRs1 w))
  | .vfreeze _ _ => .vfreeze (Buf.ofField (fieldRd w)) (Buf.ofField (fieldRs1 w))
  | i => i

theorem decode_of_reservedBits {w : Word} (h : reservedBitsClear w = false) :
    decode w = .error .reservedBits := by
  have hr : fieldRsv w ≠ 0#18 := by simp [← reservedBitsClear_iff, h]
  simp [decode, hr]

theorem decode_of_unassignedOpcode {w : Word} (hr : reservedBitsClear w = true)
    (h : opcodeAssigned w = false) : decode w = .error .unassignedOpcode := by
  have hop (i : Instr) : fieldOp w ≠ i.opcode := fun hi =>
    Bool.eq_false_iff.mp h ((opcodeAssigned_iff w).mpr ⟨i, hi⟩)
  unfold decode
  exact (if_neg (not_not.mpr ((reservedBitsClear_iff w).mp hr))).trans <|
    (if_neg (hop .mred)).trans <| (if_neg (hop .red32)).trans <| (if_neg (hop .caddq)).trans <|
    (if_neg (hop .freeze)).trans <| (if_neg (hop .mmul)).trans <|
    (if_neg (hop (.vmmul .p0 .p0 .p0))).trans <| (if_neg (hop (.vred32 .p0 .p0))).trans <|
    (if_neg (hop (.vcaddq .p0 .p0))).trans (if_neg (hop (.vfreeze .p0 .p0)))

theorem decode_of_opcode {w : Word} {i : Instr} (hr : reservedBitsClear w = true)
    (hop : fieldOp w = i.opcode) :
    decode w = if unusedFieldsClear w = true then .ok (i.withOperands w)
      else .error .unusedField := by
  rw [reservedBitsClear_iff] at hr
  cases i <;>
    simp [decode, hr, hop, unusedFieldsClear_iff, Instr.opcode, Instr.withOperands, decodeScalar,
      decodeUnary]

/-- The command read from a word that passes the three checks has that word for its encoding. -/
theorem encode_withOperands {w : Word} {i : Instr} (hr : reservedBitsClear w = true)
    (hop : fieldOp w = i.opcode) (hu : unusedFieldsClear w = true) :
    encode (i.withOperands w) = w := by
  rw [reservedBitsClear_iff] at hr
  rw [unusedFieldsClear_iff, hop] at hu
  cases i <;>
    exact (commandWord_eq_iff ..).mpr (by
      simp_all [Instr.withOperands, Instr.opcode, fieldIndexes_eq_zero_iff])

/-- The decoder's four answers, each with the checks of R95 that its word passes and the one it fails. -/
inductive Decoding (w : Word) : Except Illegal Instr → Prop where
  | reservedBits (hr : reservedBitsClear w = false) : Decoding w (.error .reservedBits)
  | unassignedOpcode (hr : reservedBitsClear w = true) (ho : opcodeAssigned w = false) :
    Decoding w (.error .unassignedOpcode)
  | unusedField (hr : reservedBitsClear w = true) (ho : opcodeAssigned w = true)
    (hu : unusedFieldsClear w = false) : Decoding w (.error .unusedField)
  | command {i : Instr} (hr : reservedBitsClear w = true) (ho : opcodeAssigned w = true)
    (hu : unusedFieldsClear w = true) (henc : encode i = w) : Decoding w (.ok i)

/-- What the decoder does on any word, said once. -/
theorem decoding (w : Word) : Decoding w (decode w) := by
  cases hr : reservedBitsClear w with
  | false =>
    rw [decode_of_reservedBits hr]
    exact .reservedBits hr
  | true =>
    cases ho : opcodeAssigned w with
    | false =>
      rw [decode_of_unassignedOpcode hr ho]
      exact .unassignedOpcode hr ho
    | true =>
      obtain ⟨i, hop⟩ := (opcodeAssigned_iff w).mp ho
      rw [decode_of_opcode hr hop]
      split_ifs with hu
      · exact .command hr ho hu (encode_withOperands hr hop hu)
      · exact .unusedField hr ho (Bool.eq_false_iff.mpr hu)

/-- A legal word passes the checks on its reserved bits and unused fields, and is the word of the command it decodes to. -/
theorem legal_of_decode {w : Word} {i : Instr} (h : decode w = .ok i) :
    reservedBitsClear w = true ∧ unusedFieldsClear w = true ∧ encode i = w := by
  have hd := decoding w
  rw [h] at hd
  cases hd with
  | command hr _ hu henc => exact ⟨hr, hu, henc⟩

/-! ## Decoding and encoding are inverse (R91, R95, R98, D32) -/

theorem decode_encode (i : Instr) : decode (encode i) = .ok i := by
  cases i <;>
    simp [encode, decode, Instr.opcode, decodeScalar, decodeUnary, fieldIndexes_eq_zero_iff]

theorem decode_eq_ok_iff (w : Word) (i : Instr) : decode w = .ok i ↔ encode i = w := by
  constructor
  · intro h
    obtain ⟨-, -, henc⟩ := legal_of_decode h
    exact henc
  · rintro rfl
    exact decode_encode i

/-- Settles O1: a legal word is rebuilt from its fields, since those it does not use are 0. -/
theorem decodeAndEncodeAreInverse : Obligations.DecodeAndEncodeAreInverse :=
  ⟨decode_encode, fun w i => (decode_eq_ok_iff w i).mp⟩

/-! ## The grounds of R95 and R96 -/

/-- Settles O3: each of the decoder's answers fixes which checks its word passes. -/
theorem illegalWordsByGround : Obligations.IllegalWordsByGround := by
  intro w
  have hd := decoding w
  generalize decode w = answer at hd
  cases hd with
  | reservedBits hr => simp [wellFormedWord, hr]
  | unassignedOpcode hr ho => simp [wellFormedWord, hr, ho]
  | unusedField hr ho hu => simp [wellFormedWord, hr, ho, hu]
  | command hr ho hu _ => simp [wellFormedWord, hr, ho, hu]

/-! ## The opcode map (R94) -/

/-- The mask of the command's row: every bit but those of the index fields it uses. -/
def Instr.mask : Instr → Word
  | .vmmul _ _ _ => 0xFFFFC0FF#32
  | .vred32 _ _ => 0xFFFFF0FF#32
  | .vcaddq _ _ => 0xFFFFF0FF#32
  | .vfreeze _ _ => 0xFFFFF0FF#32
  | _ => 0xFFFFFFFF#32

/-- The command's row of the opcode map. -/
def Instr.row (i : Instr) : OpcodeRow := ⟨i.mnemonic, commandWord 0#2 0#2 0#2 i.opcode, i.mask⟩

theorem row_mem (i : Instr) : i.row ∈ opcodeTable := by
  cases i <;> simp [opcodeTable, Instr.row, Instr.mnemonic, Instr.opcode, Instr.mask, commandWord]

theorem exists_row : ∀ r ∈ opcodeTable, ∃ i : Instr, i.row = r := by
  simp only [opcodeTable, List.forall_mem_cons]
  exact ⟨⟨.mred, rfl⟩, ⟨.red32, rfl⟩, ⟨.caddq, rfl⟩, ⟨.freeze, rfl⟩, ⟨.mmul, rfl⟩,
    ⟨.vmmul .p0 .p0 .p0, rfl⟩, ⟨.vred32 .p0 .p0, rfl⟩, ⟨.vcaddq .p0 .p0, rfl⟩,
    ⟨.vfreeze .p0 .p0, rfl⟩, by simp⟩

theorem and_scalarMask_eq_iff {op : BitVec 8} (hclass : op &&& 0x10#8 = 0#8) (w : Word) :
    w &&& 0xFFFFFFFF#32 = commandWord 0#2 0#2 0#2 op ↔
      reservedBitsClear w = true ∧ fieldOp w = op ∧ unusedFieldsClear w = true := by
  have hfields : w &&& 0xFFFFFFFF#32 = commandWord 0#2 0#2 0#2 op ↔
      fieldRsv w = 0#18 ∧ fieldOp w = op ∧ fieldIndexes w = 0#6 := by
    rw [show w &&& 0xFFFFFFFF#32 = w from BitVec.and_allOnes, eq_comm, commandWord_eq_iff,
      fieldIndexes_eq_zero_iff]
    tauto
  rw [hfields, reservedBitsClear_iff, unusedFieldsClear_iff]
  simp +contextual [hclass]

theorem and_vmmulMask_eq_iff (w : Word) :
    w &&& 0xFFFFC0FF#32 = commandWord 0#2 0#2 0#2 0x11#8 ↔
      reservedBitsClear w = true ∧ fieldOp w = 0x11#8 ∧ unusedFieldsClear w = true := by
  have hfields : w &&& 0xFFFFC0FF#32 = commandWord 0#2 0#2 0#2 0x11#8 ↔
      fieldRsv w = 0#18 ∧ fieldOp w = 0x11#8 := by
    rw [eq_comm, commandWord_eq_iff]
    simp [fieldRsv, fieldRs2, fieldRs1, fieldRd, fieldOp, BitVec.extractLsb'_and]
  rw [hfields, reservedBitsClear_iff, unusedFieldsClear_iff]
  simp +contextual

theorem and_unaryMask_eq_iff {op : BitVec 8} (hclass : op &&& 0x10#8 ≠ 0#8) (hop : op ≠ 0x11#8)
    (w : Word) :
    w &&& 0xFFFFF0FF#32 = commandWord 0#2 0#2 0#2 op ↔
      reservedBitsClear w = true ∧ fieldOp w = op ∧ unusedFieldsClear w = true := by
  have hfields : w &&& 0xFFFFF0FF#32 = commandWord 0#2 0#2 0#2 op ↔
      fieldRsv w = 0#18 ∧ fieldOp w = op ∧ fieldRs2 w = 0#2 := by
    rw [eq_comm, commandWord_eq_iff]
    simp [fieldRsv, fieldRs2, fieldRs1, fieldRd, fieldOp, BitVec.extractLsb'_and, and_comm]
  rw [hfields, reservedBitsClear_iff, unusedFieldsClear_iff]
  simp +contextual [hclass, hop]

/-- A command's row encodes exactly the words of its opcode that pass the other two checks of R95. -/
theorem row_encodes_iff (i : Instr) (w : Word) :
    i.row.encodes w = true ↔
      reservedBitsClear w = true ∧ fieldOp w = i.opcode ∧ unusedFieldsClear w = true := by
  rw [OpcodeRow.encodes, beq_iff_eq]
  cases i with
  | vmmul d a b => exact and_vmmulMask_eq_iff w
  | vred32 d a => exact and_unaryMask_eq_iff (op := 0x12#8) (by decide) (by decide) w
  | vcaddq d a => exact and_unaryMask_eq_iff (op := 0x13#8) (by decide) (by decide) w
  | vfreeze d a => exact and_unaryMask_eq_iff (op := 0x14#8) (by decide) (by decide) w
  | _ => exact and_scalarMask_eq_iff rfl w

theorem row_withOperands (i : Instr) (w : Word) : (i.withOperands w).row = i.row := by
  cases i <;> rfl

theorem decode_of_row_encodes {i : Instr} {w : Word} (h : i.row.encodes w = true) :
    decode w = .ok (i.withOperands w) := by
  obtain ⟨hr, hop, hu⟩ := (row_encodes_iff i w).mp h
  rw [decode_of_opcode hr hop, if_pos hu]

theorem fieldOp_encode (i : Instr) : fieldOp (encode i) = i.opcode := by
  cases i <;> simp [encode]

theorem row_encodes_of_decode {w : Word} {i : Instr} (h : decode w = .ok i) :
    i.row.encodes w = true := by
  obtain ⟨hr, hu, rfl⟩ := legal_of_decode h
  exact (row_encodes_iff i _).mpr ⟨hr, fieldOp_encode i, hu⟩

/-- Settles O2: a row that matches a word is the row of the command the word decodes to, so two such rows are one. -/
theorem decodeAgreesWithOpcodeTable : Obligations.DecodeAgreesWithOpcodeTable := by
  refine ⟨fun w i h => ⟨i.row, row_mem i, row_encodes_of_decode h, rfl⟩, fun w r hr h => ?_,
    fun w r hr r' hr' h h' => ?_⟩
  · obtain ⟨i, rfl⟩ := exists_row r hr
    exact ⟨_, decode_of_row_encodes h, congrArg OpcodeRow.mnemonic (row_withOperands i w)⟩
  · obtain ⟨i, rfl⟩ := exists_row r hr
    obtain ⟨j, rfl⟩ := exists_row r' hr'
    have hij : i.withOperands w = j.withOperands w :=
      Except.ok.inj ((decode_of_row_encodes h).symm.trans (decode_of_row_encodes h'))
    rw [← row_withOperands i w, hij, row_withOperands]

/-! ## The legal words (R97) -/

theorem encode_injective : Function.Injective encode := fun i j h =>
  Except.ok.inj ((decode_encode i).symm.trans ((decode_eq_ok_iff _ j).mpr h.symm))

theorem mem_allCommands (i : Instr) : i ∈ allCommands := by
  have hbuf (b : Buf) : b ∈ allBufs := by cases b <;> decide
  cases i <;> simp [allCommands, scalarCommands, vmmulCommands, unaryCommands, hbuf]

theorem allCommands_nodup : allCommands.Nodup := by decide

/-- Settles O4: the commands are listed once each, and encoding keeps them apart. -/
theorem legalWordCount : Obligations.LegalWordCount :=
  ⟨rfl, rfl, rfl, rfl, allCommands_nodup.map encode_injective, fun w => by
    simp only [decode_eq_ok_iff, List.mem_map, mem_allCommands, true_and]⟩

/-! ## Words written out (R98, R100) -/

/-- Settles O5: the layout of R91 as a sum, with buffer Pk for index k. -/
theorem assembledWords : Obligations.AssembledWords :=
  ⟨rfl, rfl, rfl, rfl, rfl, fun d a b => by
    simp [encode, toNat_commandWord, Buf.toNat_field, Instr.opcode]⟩

/-- Settles O6: a legal row is the encoding of its command; each illegal row fails one check. -/
theorem workedEncodings : Obligations.WorkedEncodings :=
  ⟨decode_word_mred, decode_word_freeze, decode_word_vmmul, decode_encode (.vmmul .p3 .p3 .p3),
    decode_word_vfreeze, decode_encode (.vred32 .p0 .p0), decode_word_vcaddq,
    decode_of_unassignedOpcode rfl rfl, decode_of_opcode (i := .vfreeze .p3 .p2) rfl rfl,
    decode_of_opcode (i := .mred) rfl rfl, decode_of_reservedBits rfl⟩

end Sys2Proof
end

section
/-! PROOFS. The pseudo-instructions of R99 (30_encoding.md): what a host's write does to the run of a program, MRED_F without wrapping inside its precondition (R121, R123), and from these LDA64, TOMONT and FROMMONT. -/

namespace Sys2Proof.Machine

/-! ## Runs of a host program while IDLE (R98) -/

/-- While IDLE a program goes on from what its first write leaves. -/
theorem run_hostWr {s : State} {off : Offset} {tg : Target} (k : Nat) (w : Word) (rest : List Slot)
    (hidle : s.engine = .idle) (h4 : off.toNat % 4 = 0) (ht : targetOf off.toNat = tg) :
    run (k + 1) { s with schedule := hostWr off w ++ rest } =
      run k { { s with schedule := rest }.writeTarget tg w with
        replies := .written :: s.replies } :=
  run_succ k (writeLeaves_of_idle (s := { s with schedule := rest }) w hidle h4 ht)

/-- While IDLE a program goes on from the acceptance of the first command it offers (R201). -/
theorem run_hostCmd {s : State} (k : Nat) (i : Instr) (rest : List Slot)
    (hidle : s.engine = .idle) :
    run (k + 1) { s with schedule := hostCmd i ++ rest } =
      run k { s.accept (encode i) with schedule := rest, replies := .written :: s.replies } := by
  rw [hostCmd, run_hostWr (tg := .cmd) k _ rest hidle rfl (by decide)]
  simp only [State.writeTarget, State.offerCommand, decode_encode]
  rfl

/-- With PHASE = RUN the engine's turn is the completion step of the command in flight (R203). -/
theorem step_engine_of_run {s : State} {i : Instr} (hrun : s.engine = .run (encode i)) :
    step (s.plan .engine) = exec i s := by
  show engineTurn s = exec i s
  simp only [engineTurn, hrun, decode_encode]

/-- A command offered while IDLE, with the next turn left to the engine, ends in its completion. -/
theorem run_hostCmd_engine {s t : State} (i : Instr) (rest : List Slot) (hidle : s.engine = .idle)
    (h : exec i { s.accept (encode i) with schedule := rest, replies := .written :: s.replies } =
      .next t) :
    run 2 { s with schedule := hostCmd i ++ .engine :: rest } = .next t :=
  (run_hostCmd 1 i _ hidle).trans (run_succ 0 ((step_engine_of_run (s := { s.accept (encode i) with
    schedule := rest, replies := .written :: s.replies }) rfl).trans h))

/-- A program that writes SB, offers MMUL and leaves the next turn to the engine ends in MMUL's completion, on SA_LO and the word written. -/
theorem run_sb_mmul {s : State} (m : Word) (hidle : s.engine = .idle) :
    ∃ u : State,
      run 3 { s with schedule := hostWr offSb m ++ (hostCmd .mmul ++ .engine :: s.schedule) } =
        .next (u.completeScalar mredF preMred (s.saLo.toInt * m.toInt)) ∧ u.err = s.err :=
  ⟨_, (run_hostWr (tg := .sb) 2 m _ hidle rfl (by decide)).trans
    (run_hostCmd_engine (s := { s with sb := m, replies := .written :: s.replies })
      .mmul s.schedule hidle rfl), rfl⟩

/-! ## MRED_F inside its precondition (R121, R123) -/

/-- The factor t of MRED_F is a signed 32-bit value. -/
theorem mredFactor_range (a : Int) : -2147483648 ≤ mredFactor a ∧ mredFactor a < 2147483648 :=
  s32_range _

/-- The low 32 bits of a − t·q are 0, since QINV inverts q (R120, R122). -/
theorem sub_mredFactor_mul_q_emod (a : Int) : (a - mredFactor a * 8380417) % 4294967296 = 0 := by
  have ht : (mredFactor a - a * 58728449) % 4294967296 = 0 := s32_congruent _
  omega

/-- Inside PreMRED the difference does not wrap. -/
theorem mredDifference_of_withinMred {a : Int} (h : withinMred a) :
    mredDifference a = a - mredFactor a * 8380417 := by
  have ht := mredFactor_range a
  exact s64_of_range (by simp only [Config.q]; omega) (by simp only [Config.q]; omega)

/-- Inside PreMRED the result is the exact quotient by 2^32. -/
theorem mredF_mul_of_withinMred {a : Int} (h : withinMred a) :
    mredF a * 4294967296 = a - mredFactor a * 8380417 := by
  have ht := mredFactor_range a
  have hd := sub_mredFactor_mul_q_emod a
  rw [mredF, mredDifference_of_withinMred h, s32_of_range (by omega) (by omega)]
  omega

/-- Inside PreMRED the result times 2^32 is the argument modulo q. -/
theorem mredF_mul_congruent {a : Int} (h : withinMred a) :
    congruent 8380417 (mredF a * 4294967296) a := by
  rw [mredF_mul_of_withinMred h]
  exact ⟨-mredFactor a, by ring⟩

/-- A factor 2^32 is moved to the other side as its inverse modulo q (R120). -/
theorem congruent_of_mul_two_pow_32 {r a : Int} (h : congruent 8380417 (r * 4294967296) a) :
    congruent 8380417 r (a * 8265825) := by
  unfold congruent at *
  omega

/-- Inside PreMRED, but at its upper end, the result lies in (−q, q). -/
theorem mredF_bounds {a : Int} (h : withinMred a) (hne : a ≠ 8380417 * 2147483648) :
    -8380417 < mredF a ∧ mredF a < 8380417 := by
  have ht := mredFactor_range a
  have hr := mredF_mul_of_withinMred h
  omega

/-- A Montgomery product inside PreMRED is flagged by nothing (R204). -/
theorem completeScalar_mred_err {a : Int} (h : withinMred a) (s : State) :
    (s.completeScalar mredF preMred a).err = s.err := by
  simp [(preMred_iff a).mpr h]

/-- SR after MRED or MMUL reads as MRED_F's value. -/
theorem completeScalar_mred_sr (a : Int) (s : State) :
    (s.completeScalar mredF preMred a).sr.toInt = mredF a := by
  rw [completeScalar_sr, toInt_u32_mredF]

/-! ## TOMONT and FROMMONT (R99, R133) -/

/-- Any coefficient times MONT2 is inside PreMRED, and not at its upper end. -/
theorem withinMred_mul_mont2 (x : Word) :
    withinMred (x.toInt * 2365951) ∧ x.toInt * 2365951 ≠ 8380417 * 2147483648 := by
  have hx := toInt_range x
  omega

/-- MONT2 is 2^64 modulo q, so one Montgomery product with it leaves a factor 2^32. -/
theorem mredF_mul_mont2_congruent (x : Word) :
    congruent 8380417 (mredF (x.toInt * 2365951)) (x.toInt * 2 ^ 32) := by
  have h := congruent_of_mul_two_pow_32 (mredF_mul_congruent (withinMred_mul_mont2 x).1)
  unfold congruent at *
  omega

/-- A coefficient is itself inside PreMRED. -/
theorem withinMred_toInt (x : Word) : withinMred x.toInt := by
  have hx := toInt_range x
  omega

/-- Settles O60: both are a Montgomery product of SA_LO inside PreMRED, one with MONT2, one with 1. -/
theorem tomontAndFrommont : Obligations.TomontAndFrommont := by
  intro s hidle
  constructor
  · obtain ⟨u, hrun, herr⟩ := run_sb_mmul 0x002419FF#32 hidle
    obtain ⟨hpre, hne⟩ := withinMred_mul_mont2 s.saLo
    obtain ⟨hlo, hhi⟩ := mredF_bounds hpre hne
    have hsr := completeScalar_mred_sr (s.saLo.toInt * 2365951) u
    exact ⟨_, hrun, hsr ▸ mredF_mul_mont2_congruent s.saLo, hsr ▸ hlo, hsr ▸ hhi,
      (completeScalar_mred_err hpre u).trans herr, rfl⟩
  · obtain ⟨u, hrun, herr⟩ := run_sb_mmul 1#32 hidle
    rw [show s.saLo.toInt * (1#32 : Word).toInt = s.saLo.toInt from mul_one _] at hrun
    have hpre := withinMred_toInt s.saLo
    have hsr := completeScalar_mred_sr s.saLo.toInt u
    exact ⟨_, hrun, hsr ▸ mredF_mul_congruent hpre, (completeScalar_mred_err hpre u).trans herr, rfl⟩

/-! ## LDA64 (R99, R23) -/

/-- The word that stores x, read unsigned. -/
theorem toNat_u32 (x : Int) : ((u32 x).toNat : Int) = x % 4294967296 := by
  rw [u32, BitVec.toNat_ofInt]
  exact Int.toNat_of_nonneg (Int.emod_nonneg x (by decide))

/-- A signed 64-bit value is its high half, signed, times 2^32 plus its low half, unsigned. -/
theorem u32_halves {v : Int} (h1 : -2 ^ 63 ≤ v) (h2 : v < 2 ^ 63) :
    (u32 (v / 4294967296)).toInt * 4294967296 + (u32 v).toNat = v := by
  rw [toInt_u32_of_range (by omega) (by omega), toNat_u32]
  omega

/-- Settles O59: the two halves of v are what R23 puts together. -/
theorem lda64LoadsSa : Obligations.Lda64LoadsSa := by
  intro s v hidle h1 h2
  exact ⟨_, (run_hostWr (tg := .saLo) 1 (u32 v) _ hidle rfl (by decide)).trans
    (run_hostWr (s := { s with saLo := u32 v, replies := .written :: s.replies }) (tg := .saHi)
      0 (u32 (v / 4294967296)) s.schedule hidle rfl (by decide)), u32_halves h1 h2, rfl⟩

end Sys2Proof.Machine
end

section
/-! PROOFS. The reduction kernel (40_reduction_kernel.md): MRED_F on every 64-bit value, inside its precondition and outside (R121 to R125), RED32_F (R126 to R129), CADDQ_F (R130, R131), FREEZE_F (R132), the Montgomery product and the round trip (R133), and the completion steps of the five scalar commands over these (R140 to R145). -/

namespace Sys2Proof.Machine

/-! ## MRED_F on every value (R121, R122, R124) -/

/-- The wrap of the difference to 64 bits keeps its low 32 bits at 0. -/
theorem mredDifference_emod (a : Int) : mredDifference a % 4294967296 = 0 := by
  have hd := sub_mredFactor_mul_q_emod a
  have hwrap : (mredDifference a - (a - mredFactor a * 8380417)) % 18446744073709551616 = 0 :=
    s64_congruent _
  omega

/-- Taking bits 63:32 of the difference is exact division by 2^32. -/
theorem mredF_mul_two_pow_32 (a : Int) : mredF a * 4294967296 = mredDifference a := by
  have hlow := mredDifference_emod a
  have hrange : -9223372036854775808 ≤ mredDifference a ∧
      mredDifference a < 9223372036854775808 := s64_range _
  rw [mredF, s32_of_range (by omega) (by omega)]
  omega

/-- Settles O8: the difference is a multiple of 2^32, and the high half is the quotient. -/
theorem montgomeryDifferenceDivides : Obligations.MontgomeryDifferenceDivides :=
  fun a _ _ => ⟨mredDifference_emod a, mredF_mul_two_pow_32 a⟩

/-- The arguments far enough from ±2^63 for the difference not to wrap (R124). -/
abbrev withinNoWrap (a : Int) : Prop :=
  -9223372036854775808 + 2147483647 * 8380417 ≤ a ∧
    a < 9223372036854775808 - 2147483648 * 8380417

/-- Where the difference does not wrap, the result is the exact quotient. -/
theorem mredF_mul_of_noWrap {a : Int} (h : withinNoWrap a) :
    mredF a * 4294967296 = a - mredFactor a * 8380417 := by
  have ht := mredFactor_range a
  rw [mredF_mul_two_pow_32]
  exact s64_of_range (by simp only [Config.q]; omega) (by simp only [Config.q]; omega)

/-- An exact quotient by 2^32 is the argument modulo q. -/
theorem mredF_mul_congruent_of_noWrap {a : Int} (h : withinNoWrap a) :
    congruent 8380417 (mredF a * 4294967296) a := by
  rw [mredF_mul_of_noWrap h]
  exact ⟨-mredFactor a, by ring⟩

/-- Settles O10: the formula without the wrap, and the model's values at the two worked inputs. -/
theorem montgomeryOutsidePrecondition : Obligations.MontgomeryOutsidePrecondition := by
  refine ⟨fun a h1 h2 => ?_, by decide, by decide, by decide⟩
  obtain ⟨hlo, hhi⟩ := mredF_range a
  have h : withinNoWrap a := ⟨h1, h2⟩
  exact ⟨mredF_mul_of_noWrap h, mredF_mul_congruent_of_noWrap h, hlo, hhi⟩

/-! ## MRED_F inside its precondition (R123) -/

/-- At the upper end of PreMRED the factor is −2^31. -/
theorem mredFactor_upperEnd : mredFactor (8380417 * 2147483648) = -2147483648 := by decide

/-- Inside PreMRED the result is q at the upper end and nowhere else. -/
theorem mredF_eq_q_iff {a : Int} (h : withinMred a) :
    mredF a = 8380417 ↔ a = 8380417 * 2147483648 := by
  constructor
  · intro hq
    by_contra hne
    exact absurd hq (mredF_bounds h hne).2.ne
  · rintro rfl
    have hr := mredF_mul_of_withinMred h
    rw [mredFactor_upperEnd] at hr
    omega

/-- Inside PreMRED the result lies in (−q, q]. -/
theorem mredF_range_of_withinMred {a : Int} (h : withinMred a) :
    -8380417 < mredF a ∧ mredF a ≤ 8380417 := by
  by_cases hq : mredF a = 8380417
  · omega
  · have hb := mredF_bounds h (mt (mredF_eq_q_iff h).mpr hq)
    omega

/-- Settles O9: congruence, the bound with its one exception, and the difference that cannot wrap. -/
theorem montgomeryGuarantee : Obligations.MontgomeryGuarantee := by
  intro a h1 h2
  have h : withinMred a := ⟨h1, h2⟩
  obtain ⟨hlo, hhi⟩ := mredF_range_of_withinMred h
  have ht := mredFactor_range a
  refine ⟨mredF_mul_congruent h, congruent_of_mul_two_pow_32 (mredF_mul_congruent h), hlo, hhi,
    mredF_eq_q_iff h, ?_, by omega, by omega⟩
  rintro rfl
  exact ⟨mredFactor_upperEnd, by decide⟩

/-! ## RED32_F (R126 to R128) -/

/-- RED32_F splits its argument at bit 23 into a1 and a residual a0, rounding to the nearest, and folds a1 back as a1·(2^13 − 1). -/
theorem red32F_split (a : Int) : ∃ a1 a0 : Int, a = a1 * 8388608 + a0 ∧
    -4194304 ≤ a0 ∧ a0 < 4194304 ∧ red32F a = a0 + a1 * 8191 := by
  refine ⟨(a + 4194304) / 8388608, a - (a + 4194304) / 8388608 * 8388608, ?_, ?_, ?_, ?_⟩
  · omega
  · omega
  · omega
  · simp only [red32F, Config.q]
    omega

/-- Settles O11: the split's a1 and a0 are those of the shift form. -/
theorem reduce32ShiftForm : Obligations.Reduce32ShiftForm := by
  intro a a1 a0 _ _ ha1 ha0
  obtain ⟨b1, b0, ha, hlo, hhi, hr⟩ := red32F_split a
  obtain rfl : a1 = b1 := by omega
  obtain rfl : a0 = b0 := by omega
  exact ⟨by omega, by omega, by omega⟩

/-- RED32_F keeps the residue modulo q. -/
theorem red32F_congruent (a : Int) : congruent 8380417 (red32F a) a :=
  ⟨-((a + 4194304) / 8388608), by simp only [red32F, Config.q]; ring⟩

/-- On 32-bit values RED32_F lies in [−6283009, 6283008] (R128). -/
theorem red32F_range {a : Int} (h1 : -2147483648 ≤ a) (h2 : a < 2147483648) :
    -6283009 ≤ red32F a ∧ red32F a ≤ 6283008 := by
  obtain ⟨a1, a0, ha, hlo, hhi, hr⟩ := red32F_split a
  omega

/-- The lower end is reached by one 32-bit value. -/
theorem red32F_eq_lowerEnd_iff {a : Int} (h1 : -2147483648 ≤ a) (h2 : a < 2147483648) :
    red32F a = -6283009 ↔ a = -2143289344 := by
  obtain ⟨a1, a0, ha, hlo, hhi, hr⟩ := red32F_split a
  omega

/-- The upper end is reached by one 32-bit value. -/
theorem red32F_eq_upperEnd_iff {a : Int} (h1 : -2147483648 ≤ a) (h2 : a < 2147483648) :
    red32F a = 6283008 ↔ a = 2143289343 := by
  obtain ⟨a1, a0, ha, hlo, hhi, hr⟩ := red32F_split a
  omega

/-- Settles O12: the range and its ends; the input of the lower end is below the bound of I2. -/
theorem reduce32Guarantee : Obligations.Reduce32Guarantee := by
  refine ⟨fun a h1 h2 => ?_, -2143289344, by decide, by decide, by decide⟩
  obtain ⟨hlo, hhi⟩ := red32F_range h1 h2
  exact ⟨red32F_congruent a, hlo, hhi, red32F_eq_lowerEnd_iff h1 h2, red32F_eq_upperEnd_iff h1 h2,
    by omega, by omega⟩

/-! ## CADDQ_F (R130, R131) -/

/-- A conditional add of q keeps the 32-bit range. -/
theorem caddqF_range {a : Int} (h1 : -2147483648 ≤ a) (h2 : a < 2147483648) :
    -2147483648 ≤ caddqF a ∧ caddqF a < 2147483648 := by
  rw [caddqF_eq h1 h2, Config.q]
  split <;> omega

/-- A conditional add of q keeps the residue modulo q. -/
theorem caddqF_congruent {a : Int} (h1 : -2147483648 ≤ a) (h2 : a < 2147483648) :
    congruent 8380417 (caddqF a) a := by
  rw [caddqF_eq h1 h2, Config.q]
  split <;> omega

/-- CADDQ_F is canonical exactly inside PreCADDQ. -/
theorem caddqF_canonical_iff {a : Int} (h1 : -2147483648 ≤ a) (h2 : a < 2147483648) :
    (0 ≤ caddqF a ∧ caddqF a < 8380417) ↔ withinCaddq a := by
  rw [caddqF_eq h1 h2, Config.q]
  split <;> omega

/-- RED32_F's range is inside PreCADDQ. -/
theorem withinCaddq_of_red32Range {a : Int} (h1 : -6283009 ≤ a) (h2 : a ≤ 6283008) :
    withinCaddq a := by omega

/-- Settles O13: the value by sign, and from it range, congruence and where it is canonical. -/
theorem caddqGuarantee : Obligations.CaddqGuarantee := by
  refine ⟨fun a h1 h2 => ?_, by decide, by decide, fun a => withinCaddq_of_red32Range, by decide⟩
  obtain ⟨hlo, hhi⟩ := caddqF_range h1 h2
  exact ⟨caddqF_eq h1 h2, hlo, hhi, caddqF_congruent h1 h2, caddqF_canonical_iff h1 h2,
    preCaddq_iff a⟩

/-! ## FREEZE_F (R132) -/

/-- The canonical representative is the residue. -/
theorem eq_emod_of_congruent {r a : Int} (h : congruent 8380417 r a) (h0 : 0 ≤ r)
    (hq : r < 8380417) : r = a % 8380417 := by
  omega

/-- On 32-bit values FREEZE_F is the residue modulo q: RED32_F lands where CADDQ_F is canonical. -/
theorem freezeF_eq_emod {a : Int} (h1 : -2147483648 ≤ a) (h2 : a < 2147483648) :
    freezeF a = a % 8380417 := by
  obtain ⟨hlo, hhi⟩ := red32F_range h1 h2
  have hlo' : -2147483648 ≤ red32F a := by omega
  have hhi' : red32F a < 2147483648 := by omega
  obtain ⟨h0, hq⟩ := (caddqF_canonical_iff hlo' hhi').mpr (withinCaddq_of_red32Range hlo hhi)
  have hc : congruent 8380417 (caddqF (red32F a)) a := by
    simpa using dvd_add (caddqF_congruent hlo' hhi') (red32F_congruent a)
  exact eq_emod_of_congruent hc h0 hq

/-- FREEZE_F is idempotent on 32-bit values. -/
theorem freezeF_freezeF {a : Int} (h1 : -2147483648 ≤ a) (h2 : a < 2147483648) :
    freezeF (freezeF a) = freezeF a := by
  rw [freezeF_eq_emod h1 h2, freezeF_eq_emod (by omega) (by omega), Int.emod_emod]

/-- Settles O14: a residue modulo q is its own residue. -/
theorem freezeIsCanonical : Obligations.FreezeIsCanonical :=
  fun _ h1 h2 => ⟨freezeF_eq_emod h1 h2, freezeF_freezeF h1 h2⟩

/-! ## The Montgomery product (R133) -/

/-- The product of two values of magnitude at most m has magnitude at most m². -/
theorem mul_range {x y m : Int} (hx : |x| ≤ m) (hy : |y| ≤ m) :
    -(m * m) ≤ x * y ∧ x * y ≤ m * m := by
  have h := mul_le_mul hx hy (abs_nonneg y) ((abs_nonneg x).trans hx)
  rw [← abs_mul] at h
  exact abs_le.mp h

/-- Two coefficients of magnitude below q have a product inside PreMRED and not at its upper end. -/
theorem mmulF_bounds {x y : Int} (hx : |x| ≤ 8380416) (hy : |y| ≤ 8380416) :
    -8380417 < mmulF x y ∧ mmulF x y < 8380417 := by
  obtain ⟨hlo, hhi⟩ := mul_range hx hy
  exact mredF_bounds (a := x * y) (by omega) (by omega)

/-- The product of two words lies in [−2^62, 2^62]. -/
theorem mul_toInt_range (x y : Word) :
    -4611686018427387904 ≤ x.toInt * y.toInt ∧ x.toInt * y.toInt ≤ 4611686018427387904 := by
  have hx := toInt_range x
  have hy := toInt_range y
  exact mul_range (m := 2147483648) (abs_le.mpr (by omega)) (abs_le.mpr (by omega))

/-- The product of two words is far from ±2^63. -/
theorem withinNoWrap_mul_toInt (x y : Word) : withinNoWrap (x.toInt * y.toInt) := by
  have h := mul_toInt_range x y
  omega

/-- A 32-bit value is the signed value of a word. -/
theorem exists_toInt_eq {x : Int} (h1 : -2147483648 ≤ x) (h2 : x < 2147483648) :
    ∃ w : Word, w.toInt = x :=
  ⟨u32 x, toInt_u32_of_range h1 h2⟩

/-- The Montgomery form of a word is congruent to it times 2^32, and lies in (−q, q). -/
theorem mmulF_mont2 (x : Word) :
    congruent 8380417 (mmulF x.toInt 2365951) (x.toInt * 4294967296) ∧
      -8380417 < mmulF x.toInt 2365951 ∧ mmulF x.toInt 2365951 < 8380417 :=
  ⟨mredF_mul_mont2_congruent x, mredF_bounds (withinMred_mul_mont2 x).1 (withinMred_mul_mont2 x).2⟩

/-- FREEZE_F takes the reduced Montgomery form of a word back to the word's residue. -/
theorem freezeF_mredF_mmulF_mont2 (x : Word) :
    freezeF (mredF (mmulF x.toInt 2365951)) = x.toInt % 8380417 := by
  obtain ⟨hm, hlo, hhi⟩ := mmulF_mont2 x
  have hr := congruent_of_mul_two_pow_32 (mredF_mul_congruent (a := mmulF x.toInt 2365951) (by omega))
  rw [freezeF_eq_emod (mredF_range _).1 (mredF_range _).2]
  omega

/-- Settles O15: a product of two words is far from ±2^63, and one with MONT2 is inside PreMRED. -/
theorem montgomeryProductGuarantee : Obligations.MontgomeryProductGuarantee := by
  intro x y hx1 hx2 hy1 hy2
  obtain ⟨x, rfl⟩ := exists_toInt_eq hx1 hx2
  obtain ⟨y, rfl⟩ := exists_toInt_eq hy1 hy2
  obtain ⟨hlo, hhi⟩ := mul_toInt_range x y
  obtain ⟨hmont, hm1, hm2⟩ := mmulF_mont2 x
  exact ⟨hlo, hhi, mredF_mul_congruent_of_noWrap (withinNoWrap_mul_toInt x y),
    mredF_range_of_withinMred,
    fun _ _ _ _ => mmulF_bounds (abs_le.mpr (by omega)) (abs_le.mpr (by omega)),
    (withinMred_mul_mont2 x).1, hmont, hm1, hm2, freezeF_mredF_mmulF_mont2 x⟩

/-! ## The scalar commands (R140 to R145) -/

/-- A scalar completion changes SR and ERR, ends the command, and changes nothing else (R203). -/
theorem completeScalar_frame (s : State) (F : Int → Int) (ok : Int → Bool) (a : Int) :
    scalarFrame s (s.completeScalar F ok a) := rfl

/-- SR after a completion on SA_LO reads as the function's value, if that is a 32-bit value. -/
theorem completeScalar_sa32_sr (s : State) {F : Int → Int} (ok : Int → Bool)
    (h : -2147483648 ≤ F s.saLo.toInt ∧ F s.saLo.toInt < 2147483648) :
    (s.completeScalar F ok s.sa32).sr.toInt = F s.saLo.toInt :=
  toInt_u32_of_range h.1 h.2

/-- MRED's operand is SA's value as R23 writes it. -/
theorem sa64_eq_saValue (s : State) : s.sa64 = s.saValue := sa64_eq s

/-- SR after MRED reads as MRED_F of SA. -/
theorem mred_sr (s : State) :
    (s.completeScalar mredF preMred s.sa64).sr.toInt = mredF s.saValue := by
  rw [completeScalar_mred_sr, sa64_eq_saValue]

/-- MRED has the testable property of R145, from the guarantee of MRED_F. -/
theorem mred_testable (s : State) :
    testableProperty s (s.completeScalar mredF preMred s.sa64) .mred := by
  intro h
  rw [mred_sr]
  exact ⟨mredF_mul_congruent h, congruent_of_mul_two_pow_32 (mredF_mul_congruent h),
    mredF_bounds h, (mredF_eq_q_iff h).mpr⟩

/-- Settles O16: MRED is the template over MRED_F, whose value times 2^32 is the difference. -/
theorem mredCompletes : Obligations.MredCompletes := by
  intro s
  have hsr := congrArg (· * (2 : Int) ^ 32) (mred_sr s)
  exact ⟨_, rfl, completeScalar_frame s _ _ _, hsr.trans (mredF_mul_two_pow_32 s.saValue),
    exec_errAfter (i := .mred) rfl, mred_testable s⟩

/-- SR after RED32 reads as RED32_F of SA_LO. -/
theorem red32_sr (s : State) :
    (s.completeScalar red32F noPrecondition s.sa32).sr.toInt = red32F s.saLo.toInt := by
  obtain ⟨h1, h2⟩ := toInt_range s.saLo
  have h := red32F_range h1 h2
  exact completeScalar_sa32_sr s _ (by omega)

/-- RED32 has the testable property of R145, from the guarantee of RED32_F. -/
theorem red32_testable (s : State) :
    testableProperty s (s.completeScalar red32F noPrecondition s.sa32) .red32 := by
  obtain ⟨h1, h2⟩ := toInt_range s.saLo
  rw [testableProperty, red32_sr]
  exact ⟨red32F_congruent _, red32F_range h1 h2⟩

/-- Settles O17: RED32 is the template over RED32_F, which has no precondition to break. -/
theorem red32Completes : Obligations.Red32Completes := fun s =>
  ⟨_, rfl, completeScalar_frame s _ _ _, rfl, red32_sr s, red32_testable s⟩

/-- SR after CADDQ reads as CADDQ_F of SA_LO. -/
theorem caddq_sr (s : State) :
    (s.completeScalar caddqF preCaddq s.sa32).sr.toInt = caddqF s.saLo.toInt := by
  obtain ⟨h1, h2⟩ := toInt_range s.saLo
  exact completeScalar_sa32_sr s _ (caddqF_range h1 h2)

/-- CADDQ has the testable property of R145, from the guarantee of CADDQ_F. -/
theorem caddq_testable (s : State) :
    testableProperty s (s.completeScalar caddqF preCaddq s.sa32) .caddq := by
  obtain ⟨h1, h2⟩ := toInt_range s.saLo
  intro h
  rw [caddq_sr]
  exact ⟨caddqF_congruent h1 h2, (caddqF_canonical_iff h1 h2).mpr h⟩

/-- Settles O18: CADDQ is the template over CADDQ_F, whose value goes by the sign of SA_LO. -/
theorem caddqCompletes : Obligations.CaddqCompletes := by
  intro s
  obtain ⟨h1, h2⟩ := toInt_range s.saLo
  exact ⟨_, rfl, completeScalar_frame s _ _ _, (caddq_sr s).trans (caddqF_eq h1 h2),
    exec_errAfter (i := .caddq) rfl, caddq_testable s⟩

/-- SR after FREEZE reads as FREEZE_F of SA_LO. -/
theorem freeze_sr (s : State) :
    (s.completeScalar freezeF noPrecondition s.sa32).sr.toInt = freezeF s.saLo.toInt := by
  obtain ⟨h1, h2⟩ := toInt_range s.saLo
  have h := freezeF_eq_emod h1 h2
  exact completeScalar_sa32_sr s _ (by omega)

/-- FREEZE of a result that FREEZE_F gave leaves that result in SR again. -/
theorem freeze_of_frozen {t : State} {a : Int} (h1 : -2147483648 ≤ a) (h2 : a < 2147483648)
    (h : t.sr.toInt = freezeF a) :
    ∃ u, exec .freeze { t with saLo := t.sr } = .next u ∧ u.sr = t.sr := by
  refine ⟨_, rfl, ?_⟩
  show u32 (freezeF t.sr.toInt) = t.sr
  rw [h, freezeF_freezeF h1 h2, ← h, u32_toInt]

/-- FREEZE has the testable property of R145, from the guarantee of FREEZE_F. -/
theorem freeze_testable (s : State) :
    testableProperty s (s.completeScalar freezeF noPrecondition s.sa32) .freeze := by
  obtain ⟨h1, h2⟩ := toInt_range s.saLo
  have h := (freeze_sr s).trans (freezeF_eq_emod h1 h2)
  exact ⟨by omega, by omega, by omega, freeze_of_frozen h1 h2 (freeze_sr s)⟩

/-- Settles O19: FREEZE is the template over FREEZE_F, the residue modulo q. -/
theorem freezeCompletes : Obligations.FreezeCompletes := by
  intro s
  obtain ⟨h1, h2⟩ := toInt_range s.saLo
  exact ⟨_, rfl, completeScalar_frame s _ _ _, rfl, (freeze_sr s).trans (freezeF_eq_emod h1 h2),
    freeze_testable s⟩

/-- SR after MMUL reads as MRED_F of the product of SA_LO and SB. -/
theorem mmul_sr (s : State) :
    (s.completeScalar mredF preMred (product s.sa32 s.sb32)).sr.toInt =
      mredF (s.saLo.toInt * s.sb.toInt) :=
  completeScalar_mred_sr _ s

/-- Settles O20: MMUL is the template over MRED_F of a product far from ±2^63. -/
theorem mmulCompletes : Obligations.MmulCompletes := by
  intro s
  have hsr := congrArg (· * (2 : Int) ^ 32) (mmul_sr s)
  exact ⟨_, rfl, completeScalar_frame s _ _ _,
    hsr.trans (mredF_mul_of_noWrap (withinNoWrap_mul_toInt s.saLo s.sb)),
    exec_errAfter (i := .mmul) rfl⟩

end Sys2Proof.Machine
end

section
/-! PROOFS. The polynomial layer (41_polynomial_layer.md): what a vector completion leaves in the buffers, said once for the shape of R170, and from it the four vector commands (R172 to R175), canonical output (R176) and the equivalences of R174 and R175; the element-by-element datapath (R171); the fixed access pattern (R177, R178). -/

namespace Sys2Proof.Machine

/-! ## What a vector completion leaves (R170) -/

/-- A coefficient is the signed value of its word. -/
theorem coefficient_of_word {s : State} {b : Buf} {i : Nat} {x : Word}
    (hx : s.readBufWord b i = some x) : s.coefficient b i = some x.toInt := by
  simp [State.coefficient, hx]

/-- An element product is that of the two words' signed values. -/
theorem elementProduct_of_words {s : State} {b1 b2 : Buf} {i : Nat} {x y : Word}
    (hx : s.readBufWord b1 i = some x) (hy : s.readBufWord b2 i = some y) :
    s.elementProduct b1 b2 i = some (x.toInt * y.toInt) := by
  simp [State.elementProduct, coefficient_of_word hx, coefficient_of_word hy, product]

/-- Coefficients read together are the 256 read one by one. -/
theorem coefficient_eq_getElem {s : State} {b : Buf} {xs : List Int}
    (h : s.coefficients b = some xs) :
    xs.length = 256 ∧ ∀ i, (hi : i < xs.length) → s.coefficient b i = some xs[i] := by
  obtain ⟨hl, hw⟩ := coefficients_getElem h
  refine ⟨hl, fun i hi => ?_⟩
  obtain ⟨x, hx, he⟩ := hw i hi
  rw [he, coefficient_of_word hx]

/-- Products read together are the 256 read one by one. -/
theorem elementProduct_eq_getElem {s : State} {b1 b2 : Buf} {ps : List Int}
    (h : s.products b1 b2 = some ps) :
    ps.length = 256 ∧ ∀ i, (hi : i < ps.length) → s.elementProduct b1 b2 i = some ps[i] := by
  obtain ⟨hl, hw⟩ := products_getElem h
  refine ⟨hl, fun i hi => ?_⟩
  obtain ⟨x, y, hx, hy, he⟩ := hw i hi
  rw [he, elementProduct_of_words hx hy]

/-- A vector completion of 256 elements changes P[rd] and ERR, ends the command, and changes nothing else (R203). -/
theorem completeVector_frame (s : State) (F : Int → Int) (ok : Int → Bool) (rd : Buf)
    {xs : List Int} (hl : xs.length = 256) : vectorFrame rd s (s.completeVector F ok rd xs) :=
  ⟨rfl, fun a ha => readByte_writeBuffer_outside s rd _ a (by simpa [hl, inBuffer, Config.n] using ha)⟩

/-- A unary vector command that completes has written the image of each source word, and nothing outside P[rd]. -/
theorem unary_completion {F : Int → Int} {ok : Int → Bool} {rd a : Buf} {s t : State}
    (h : completeOrFault F ok rd (s.coefficients a) s = .next t) :
    vectorFrame rd s t ∧ ∀ i < 256, ∀ x : Word, s.readBufWord a i = some x →
      t.readBufWord rd i = some (u32 (F x.toInt)) := by
  obtain ⟨xs, hxs, rfl⟩ := completeOrFault_next h
  obtain ⟨hl, hc⟩ := coefficient_eq_getElem hxs
  refine ⟨completeVector_frame s F ok rd hl, fun i hi x hx => ?_⟩
  have he : x.toInt = xs[i] :=
    Option.some.inj ((coefficient_of_word hx).symm.trans (hc i (hl ▸ hi)))
  rw [he, readBufWord_completeVector _ _ _ _ _ _ (hl ▸ hi)]

/-- VMMUL that completes has written MRED_F of each product, and nothing outside P[rd]. -/
theorem vmmul_completion {d a b : Buf} {s t : State} (h : exec (.vmmul d a b) s = .next t) :
    vectorFrame d s t ∧ ∀ i < 256, ∀ x y : Word, s.readBufWord a i = some x →
      s.readBufWord b i = some y → t.readBufWord d i = some (u32 (mredF (x.toInt * y.toInt))) := by
  obtain ⟨ps, hps, rfl⟩ := completeOrFault_next h
  obtain ⟨hl, hc⟩ := elementProduct_eq_getElem hps
  refine ⟨completeVector_frame s _ _ d hl, fun i hi x y hx hy => ?_⟩
  have he : x.toInt * y.toInt = ps[i] :=
    Option.some.inj ((elementProduct_of_words hx hy).symm.trans (hc i (hl ▸ hi)))
  rw [he, readBufWord_completeVector _ _ _ _ _ _ (hl ▸ hi)]

/-! ## The four vector commands (R172 to R175) -/

/-- Settles O21: a product of two words is far from ±2^63, so MRED_F of it does not wrap. -/
theorem vmmulCompletes : Obligations.VmmulCompletes := by
  intro s d a b ha hb
  obtain ⟨t, h⟩ := (exec_next_iff_sourcesWritten (.vmmul d a b) s).mpr ⟨ha, hb⟩
  obtain ⟨hframe, hword⟩ := vmmul_completion h
  refine ⟨t, h, hframe, fun i hi x y hx hy => ⟨_, hword i hi x y hx hy, ?_⟩, exec_errAfter h⟩
  rw [toInt_u32_mredF]
  exact mredF_mul_of_noWrap (withinNoWrap_mul_toInt x y)

/-- The word that stores RED32_F of a word reads back as that value. -/
theorem toInt_u32_red32F (x : Word) : (u32 (red32F x.toInt)).toInt = red32F x.toInt := by
  obtain ⟨h1, h2⟩ := toInt_range x
  have h := red32F_range h1 h2
  exact toInt_u32_of_range (by omega) (by omega)

/-- The word that stores CADDQ_F of a word reads back as that value. -/
theorem toInt_u32_caddqF (x : Word) : (u32 (caddqF x.toInt)).toInt = caddqF x.toInt := by
  obtain ⟨h1, h2⟩ := toInt_range x
  obtain ⟨hlo, hhi⟩ := caddqF_range h1 h2
  exact toInt_u32_of_range hlo hhi

/-- The word that stores FREEZE_F of a word reads back as that value. -/
theorem toInt_u32_freezeF (x : Word) : (u32 (freezeF x.toInt)).toInt = freezeF x.toInt := by
  obtain ⟨h1, h2⟩ := toInt_range x
  have h := freezeF_eq_emod h1 h2
  exact toInt_u32_of_range (by omega) (by omega)

/-- Settles O22: VRED32 is the shape of R170 over RED32_F, which has no precondition to break. -/
theorem vred32Completes : Obligations.Vred32Completes := by
  intro s d a ha
  obtain ⟨t, h⟩ := (exec_next_iff_sourcesWritten (.vred32 d a) s).mpr ha
  obtain ⟨hframe, hword⟩ := unary_completion h
  exact ⟨t, h, hframe, (exec_errAfter h).2 id,
    fun i hi x hx => ⟨_, hword i hi x hx, toInt_u32_red32F x⟩⟩

/-- Settles O23: VCADDQ is the shape of R170 over CADDQ_F, whose value goes by the sign. -/
theorem vcaddqCompletes : Obligations.VcaddqCompletes := by
  intro s d a ha
  obtain ⟨t, h⟩ := (exec_next_iff_sourcesWritten (.vcaddq d a) s).mpr ha
  obtain ⟨hframe, hword⟩ := unary_completion h
  refine ⟨t, h, hframe, fun i hi x hx => ⟨_, hword i hi x hx, ?_⟩, exec_errAfter h⟩
  obtain ⟨h1, h2⟩ := toInt_range x
  exact (toInt_u32_caddqF x).trans (caddqF_eq h1 h2)

/-- The word that stores FREEZE_F of a word is its residue modulo q. -/
theorem toInt_u32_freezeF_eq_emod (x : Word) :
    (u32 (freezeF x.toInt)).toInt = x.toInt % 8380417 := by
  obtain ⟨h1, h2⟩ := toInt_range x
  rw [toInt_u32_freezeF, freezeF_eq_emod h1 h2]

/-- Settles O24: VFREEZE is the shape of R170 over FREEZE_F, the residue modulo q. -/
theorem vfreezeCompletes : Obligations.VfreezeCompletes := by
  intro s d a ha
  obtain ⟨t, h⟩ := (exec_next_iff_sourcesWritten (.vfreeze d a) s).mpr ha
  obtain ⟨hframe, hword⟩ := unary_completion h
  exact ⟨t, h, hframe, (exec_errAfter h).2 id,
    fun i hi x hx => ⟨_, hword i hi x hx, toInt_u32_freezeF_eq_emod x⟩⟩

/-! ## Canonical output, and VFREEZE twice (R175, R176) -/

/-- A unary vector command that completes has a value in each source word, and its image in P[rd]. -/
theorem unary_words {F : Int → Int} {ok : Int → Bool} {rd a : Buf} {s t : State}
    (h : completeOrFault F ok rd (s.coefficients a) s = .next t) {i : Nat} (hi : i < 256) :
    ∃ x : Word, s.readBufWord a i = some x ∧ t.readBufWord rd i = some (u32 (F x.toInt)) := by
  have hread := (completeOrFault_next_iff F ok rd (s.coefficients a) s).mp ⟨t, h⟩
  obtain ⟨x, hx⟩ := Option.isSome_iff_exists.mp ((coefficients_isSome s a).mp hread i hi)
  exact ⟨x, hx, (unary_completion h).2 i hi x hx⟩

/-- Settles O25: a residue modulo q is canonical. -/
theorem vfreezeOutputIsCanonical : Obligations.VfreezeOutputIsCanonical := by
  intro s t d a h i hi
  obtain ⟨x, -, ht⟩ := unary_words h hi
  have hr := toInt_u32_freezeF_eq_emod x
  exact ⟨_, ht, by omega, by omega⟩

/-- A unary vector command leaves P[rd] written as a whole, so the next command can read it. -/
theorem unary_bufferWritten {F : Int → Int} {ok : Int → Bool} {rd a : Buf} {s t : State}
    (h : completeOrFault F ok rd (s.coefficients a) s = .next t) : t.bufferWritten rd := by
  intro i hi
  obtain ⟨x, -, ht⟩ := unary_words h hi
  simp [ht]

/-- Settles O26: the first VFREEZE leaves its destination written, and FREEZE_F is idempotent on words. -/
theorem vfreezeTwiceEqualsOnce : Obligations.VfreezeTwiceEqualsOnce := by
  intro s t d a e h
  obtain ⟨u, hu⟩ := (exec_next_iff_sourcesWritten (.vfreeze e d) t).mpr (unary_bufferWritten h)
  refine ⟨u, hu, fun i hi => ?_⟩
  obtain ⟨x, -, ht⟩ := unary_words h hi
  obtain ⟨h1, h2⟩ := toInt_range x
  rw [(unary_completion hu).2 i hi _ ht, ht, toInt_u32_freezeF, freezeF_freezeF h1 h2]

/-! ## VCADDQ after VRED32 (R174) -/

/-- The bytes of a word put together from bytes are those bytes. -/
theorem wordByte_wordOfBytes (b0 b1 b2 b3 : Byte) :
    wordByte (wordOfBytes b0 b1 b2 b3) 0 = b0 ∧ wordByte (wordOfBytes b0 b1 b2 b3) 1 = b1 ∧
      wordByte (wordOfBytes b0 b1 b2 b3) 2 = b2 ∧ wordByte (wordOfBytes b0 b1 b2 b3) 3 = b3 := by
  have h0 := b0.isLt
  have h1 := b1.isLt
  have h2 := b2.isLt
  simp only [← BitVec.toNat_inj, wordByte_eq_ofNat, wordOfBytes, toNat_append_eq_add,
    BitVec.toNat_ofNat]
  omega

/-- A word that has a value determines its four bytes. -/
theorem readByte_of_readWord {m : Memory} {a : Nat} {w : Word} (h : m.readWord a = some w) :
    ∀ j < 4, m.readByte (a + j) = some (wordByte w j) := by
  unfold Memory.readWord at h
  split at h
  · next b0 b1 b2 b3 h0 h1 h2 h3 =>
    obtain rfl : wordOfBytes b0 b1 b2 b3 = w := Option.some.inj h
    simp [forall_byte_iff, wordByte_wordOfBytes, h0, h1, h2, h3]
  · cases h

/-- Every byte of a buffer is one of the four of one of its words. -/
theorem exists_word_of_inBuffer {b : Buf} {o : Nat} (h : inBuffer b o) :
    ∃ i < 256, ∃ j < 4, o = bufOffset b i + j := by
  simp only [inBuffer, bufOffset, Config.n] at h ⊢
  exact ⟨(o - (0x400 + 0x400 * bufIndex b)) / 4, by omega, (o - (0x400 + 0x400 * bufIndex b)) % 4,
    by omega, by omega⟩

/-- Two vector completions from the same state into P[rd] are equal byte for byte when they leave the same 256 words there. -/
theorem readByte_eq_of_vectorFrame {rd : Buf} {s t t' : State} (h : vectorFrame rd s t)
    (h' : vectorFrame rd s t')
    (hw : ∀ i < 256, ∃ w, t.readBufWord rd i = some w ∧ t'.readBufWord rd i = some w) (o : Nat) :
    t.mem.readByte o = t'.mem.readByte o := by
  obtain ⟨-, houtside⟩ := h
  obtain ⟨-, houtside'⟩ := h'
  by_cases ho : inBuffer rd o
  · obtain ⟨i, hi, j, hj, rfl⟩ := exists_word_of_inBuffer ho
    obtain ⟨w, hw, hw'⟩ := hw i hi
    rw [readByte_of_readWord hw j hj, readByte_of_readWord hw' j hj]
  · rw [houtside o ho, houtside' o ho]

/-- One vector completion after another into the same buffer changes no more than one does. -/
theorem vectorFrame_trans {rd : Buf} {s t u : State} (h : vectorFrame rd s t)
    (h' : vectorFrame rd t u) : vectorFrame rd s u := by
  obtain ⟨ht, hmem⟩ := h
  obtain ⟨hu, hmem'⟩ := h'
  exact ⟨hu.trans (by rw [ht]), fun a ha => (hmem' a ha).trans (hmem a ha)⟩

/-- Two vector completions from the same state that agree on ERR differ in the buffers alone. -/
theorem eq_with_mem_of_vectorFrame {rd : Buf} {s t t' : State} (h : vectorFrame rd s t)
    (h' : vectorFrame rd s t') (herr : t.err = t'.err) : t = { t' with mem := t.mem } := by
  obtain ⟨ht, -⟩ := h
  obtain ⟨ht', -⟩ := h'
  exact ht.trans (by rw [ht', herr])

/-- After VRED32 no word of the destination breaks PreCADDQ. -/
theorem not_breaksPrecondition_after_vred32 {s t : State} {d a : Buf}
    (h : exec (.vred32 d a) s = .next t) : ¬t.breaksPrecondition (.vcaddq d d) := by
  rintro ⟨i, hi, y, hy, hbroken⟩
  obtain ⟨x, -, ht⟩ := unary_words h hi
  obtain rfl : u32 (red32F x.toInt) = y := Option.some.inj (ht.symm.trans hy)
  obtain ⟨h1, h2⟩ := toInt_range x
  obtain ⟨hlo, hhi⟩ := red32F_range h1 h2
  rw [toInt_u32_red32F] at hbroken
  exact hbroken (withinCaddq_of_red32Range hlo hhi)

/-- Settles O27: FREEZE_F is CADDQ_F of RED32_F, and RED32_F's results are inside PreCADDQ. -/
theorem vcaddqAfterVred32IsVfreeze : Obligations.VcaddqAfterVred32IsVfreeze := by
  intro s t f d a ht hf
  obtain ⟨u, hu⟩ := (exec_next_iff_sourcesWritten (.vcaddq d d) t).mpr (unary_bufferWritten ht)
  obtain ⟨htframe, htword⟩ := unary_completion ht
  obtain ⟨huframe, huword⟩ := unary_completion hu
  obtain ⟨hfframe, -⟩ := unary_completion hf
  have hframe := vectorFrame_trans htframe huframe
  have herr : u.err = f.err := by
    rw [(exec_errAfter hu).2 (not_breaksPrecondition_after_vred32 ht), (exec_errAfter ht).2 id,
      (exec_errAfter hf).2 id]
  refine ⟨u, hu, eq_with_mem_of_vectorFrame hframe hfframe herr,
    readByte_eq_of_vectorFrame hframe hfframe fun i hi => ?_⟩
  obtain ⟨x, hx, hfx⟩ := unary_words hf hi
  refine ⟨u32 (freezeF x.toInt), ?_, hfx⟩
  rw [huword i hi _ (htword i hi x hx), toInt_u32_red32F, freezeF]

/-! ## One element at a time (R171) -/

/-- An element argument reads only its own index: a write of any buffer at another index leaves it as it was (R171). -/
def readsOwnIndex (arg : State → Nat → Option Int) : Prop :=
  ∀ (s : State) (rd : Buf) (i j : Nat) (w : Word), i < 256 → j < 256 → i ≠ j →
    arg (s.writeBufWord rd i w) j = arg s j

theorem coefficient_readsOwnIndex (b : Buf) : readsOwnIndex fun s j => s.coefficient b j := by
  intro s rd i j w hi hj hne
  simp only [State.coefficient, readBufWord_writeBufWord_other s w hi hj (.inr hne)]

theorem elementProduct_readsOwnIndex (b1 b2 : Buf) :
    readsOwnIndex fun s j => s.elementProduct b1 b2 j := by
  intro s rd i j w hi hj hne
  have hc (b : Buf) := coefficient_readsOwnIndex b s rd i j w hi hj hne
  simp only [State.elementProduct, hc]

/-- Writes the words of a buffer from index k on: what is left of writeBuffer after k elements. -/
def State.writeBufferFrom (s : State) (b : Buf) (k : Nat) (ws : List Word) : State :=
  { s with mem := s.mem.writeWords (bufOffset b k) ws }

theorem writeBufferFrom_zero (s : State) (b : Buf) (ws : List Word) :
    s.writeBufferFrom b 0 ws = s.writeBuffer b ws := rfl

theorem writeBufferFrom_nil (s : State) (b : Buf) (k : Nat) : s.writeBufferFrom b k [] = s := rfl

theorem writeBufferFrom_cons (s : State) (b : Buf) (k : Nat) (w : Word) (ws : List Word) :
    s.writeBufferFrom b k (w :: ws) = (s.writeBufWord b k w).writeBufferFrom b (k + 1) ws := rfl

section Datapath

variable (F : Int → Int) (ok : Int → Bool) (rd : Buf) {arg : State → Nat → Option Int}

/-- Where every argument has a value, the datapath from index k on writes the images of the arguments the state held at its start. -/
theorem elementByElement_of_values (hown : readsOwnIndex arg) (xs : List Int) (k : Nat)
    (broken : Bool) (s : State) (hk : k + xs.length ≤ 256)
    (hx : ∀ i, (hi : i < xs.length) → arg s (k + i) = some xs[i]) :
    elementByElement F ok rd arg (List.range' k xs.length) broken s =
      .next (((s.writeBufferFrom rd k (xs.map fun a => u32 (F a))).flagPre
        (broken || xs.any fun a => !ok a)).finish) := by
  induction xs generalizing k broken s with
  | nil => simp [elementByElement, writeBufferFrom_nil]
  | cons x xs ih =>
    simp only [List.length_cons] at hk hx ⊢
    have hhead : arg s k = some x := hx 0 (by omega)
    have htail : ∀ i, (hi : i < xs.length) →
        arg (s.writeBufWord rd k (u32 (F x))) (k + 1 + i) = some xs[i] := fun i hi => by
      rw [hown s rd k (k + 1 + i) _ (by omega) (by omega) (by omega), Nat.add_right_comm k 1 i]
      exact hx (i + 1) (by omega)
    rw [List.range'_succ, elementByElement, hhead]
    simp only [ih (k + 1) _ _ (by omega) htail, List.map_cons, writeBufferFrom_cons, List.any_cons,
      Bool.or_assoc]

/-- Where some argument has no value, the datapath faults: no write before it gives it one. -/
theorem elementByElement_of_missing (hown : readsOwnIndex arg) (is : List Nat) (broken : Bool)
    (s : State) (his : ∀ i ∈ is, i < 256) {j : Nat} (hj : j ∈ is) (hnone : arg s j = none) :
    elementByElement F ok rd arg is broken s = .fault .unwrittenRead := by
  induction is generalizing broken s with
  | nil => cases hj
  | cons i is ih =>
    obtain ⟨hi, his⟩ := List.forall_mem_cons.mp his
    rw [elementByElement]
    cases ha : arg s i with
    | none => rfl
    | some a =>
      have hne : i ≠ j := by rintro rfl; simp [hnone] at ha
      have hj : j ∈ is := (List.mem_cons.mp hj).resolve_left hne.symm
      exact ih _ _ his hj ((hown s rd i j _ hi (his j hj) hne).trans hnone)

/-- The datapath gives the outcome of R170 when the atomic step's arguments are the 256 element arguments, and one of these is missing where those are. -/
theorem elementByElement_eq_completeOrFault (hown : readsOwnIndex arg) {args : Option (List Int)}
    {s : State}
    (hsome : ∀ {xs}, args = some xs →
      xs.length = 256 ∧ ∀ i, (hi : i < xs.length) → arg s i = some xs[i])
    (hnone : args = none → ∃ j < 256, arg s j = none) :
    elementByElement F ok rd arg (List.range Config.n) false s = completeOrFault F ok rd args s := by
  cases hargs : args with
  | none =>
    obtain ⟨j, hj, hmissing⟩ := hnone hargs
    exact elementByElement_of_missing F ok rd hown _ _ s (fun i hi => List.mem_range.mp hi)
      (List.mem_range.mpr hj) hmissing
  | some xs =>
    obtain ⟨hl, hx⟩ := hsome hargs
    have h := elementByElement_of_values F ok rd hown xs 0 false s (by omega)
      (fun i hi => by rw [Nat.zero_add]; exact hx i hi)
    rw [hl, ← List.range_eq_range', writeBufferFrom_zero, Bool.false_or] at h
    exact h

end Datapath

/-- A buffer is not written as a whole exactly when one of its words has no value. -/
theorem not_bufferWritten_iff (s : State) (b : Buf) :
    ¬s.bufferWritten b ↔ ∃ j < 256, s.readBufWord b j = none := by
  simp [State.bufferWritten, Config.n]

/-- A buffer that cannot be read has an element without a value. -/
theorem exists_coefficient_eq_none {s : State} {b : Buf} (h : s.coefficients b = none) :
    ∃ j < 256, s.coefficient b j = none := by
  have hw : ¬s.bufferWritten b := fun hw => by simpa [h] using (coefficients_isSome s b).mpr hw
  obtain ⟨j, hj, hnone⟩ := (not_bufferWritten_iff s b).mp hw
  exact ⟨j, hj, by simp [State.coefficient, hnone]⟩

/-- Two buffers whose products cannot be read have an index whose product has no value. -/
theorem exists_elementProduct_eq_none {s : State} {b1 b2 : Buf} (h : s.products b1 b2 = none) :
    ∃ j < 256, s.elementProduct b1 b2 j = none := by
  cases h1 : s.coefficients b1 with
  | none =>
    obtain ⟨j, hj, hnone⟩ := exists_coefficient_eq_none h1
    exact ⟨j, hj, by simp [State.elementProduct, hnone]⟩
  | some xs =>
    have hread := products_isSome s b1 b2
    have h2 : s.coefficients b2 = none := by simpa [h, h1] using hread
    obtain ⟨j, hj, hnone⟩ := exists_coefficient_eq_none h2
    exact ⟨j, hj, by cases hx : s.coefficient b1 j <;> simp [State.elementProduct, hnone, hx]⟩

/-- A unary vector command gives the same outcome on the datapath of R171. -/
theorem elementByElement_coefficients (F : Int → Int) (ok : Int → Bool) (rd a : Buf) (s : State) :
    elementByElement F ok rd (fun t j => t.coefficient a j) (List.range Config.n) false s =
      completeOrFault F ok rd (s.coefficients a) s :=
  elementByElement_eq_completeOrFault F ok rd (coefficient_readsOwnIndex a)
    coefficient_eq_getElem exists_coefficient_eq_none

/-- Settles O28: each element argument reads only its own index, so no write of the datapath reaches an argument still to be read. -/
theorem elementOrderIsExact : Obligations.ElementOrderIsExact := by
  intro i s
  cases i with
  | vmmul rd rs1 rs2 =>
    exact elementByElement_eq_completeOrFault mredF preMred rd
      (elementProduct_readsOwnIndex rs1 rs2) elementProduct_eq_getElem
      exists_elementProduct_eq_none
  | vred32 rd rs1 => exact elementByElement_coefficients _ _ rd rs1 s
  | vcaddq rd rs1 => exact elementByElement_coefficients _ _ rd rs1 s
  | vfreeze rd rs1 => exact elementByElement_coefficients _ _ rd rs1 s
  | _ => rfl

/-! ## The access pattern (R177, R178) -/

/-- The source buffers of a command: its accesses read each index of them and nothing else. -/
def sourceBufs : Instr → List Buf
  | .mred => []
  | .red32 => []
  | .caddq => []
  | .freeze => []
  | .mmul => []
  | .vmmul _ rs1 rs2 => [rs1, rs2]
  | .vred32 _ rs1 => [rs1]
  | .vcaddq _ rs1 => [rs1]
  | .vfreeze _ rs1 => [rs1]

/-- The destination buffer of a vector command: its accesses write each index of it and nothing else. -/
def destinationBuf : Instr → Option Buf
  | .mred => none
  | .red32 => none
  | .caddq => none
  | .freeze => none
  | .mmul => none
  | .vmmul rd _ _ => some rd
  | .vred32 rd _ => some rd
  | .vcaddq rd _ => some rd
  | .vfreeze rd _ => some rd

theorem read_mem_unaryAccesses (rd rs1 b : Buf) (j : Nat) :
    .read b j ∈ unaryAccesses rd rs1 ↔ j < 256 ∧ b ∈ [rs1] := by
  simp [unaryAccesses, Config.n]

theorem write_mem_unaryAccesses (rd rs1 b : Buf) (j : Nat) :
    .write b j ∈ unaryAccesses rd rs1 ↔ j < 256 ∧ some rd = some b := by
  simp [unaryAccesses, Config.n, eq_comm]

/-- A command reads every index of its sources (R178). -/
theorem read_mem_bufferAccesses (i : Instr) (b : Buf) (j : Nat) :
    .read b j ∈ bufferAccesses i ↔ j < 256 ∧ b ∈ sourceBufs i := by
  cases i with
  | vmmul rd rs1 rs2 => simp [bufferAccesses, sourceBufs, Config.n, ← or_and_right]
  | vred32 rd rs1 => exact read_mem_unaryAccesses rd rs1 b j
  | vcaddq rd rs1 => exact read_mem_unaryAccesses rd rs1 b j
  | vfreeze rd rs1 => exact read_mem_unaryAccesses rd rs1 b j
  | _ => simp [bufferAccesses, sourceBufs]

/-- A command writes every index of its destination (R178). -/
theorem write_mem_bufferAccesses (i : Instr) (b : Buf) (j : Nat) :
    .write b j ∈ bufferAccesses i ↔ j < 256 ∧ destinationBuf i = some b := by
  cases i with
  | vmmul rd rs1 rs2 => simp [bufferAccesses, destinationBuf, Config.n, eq_comm]
  | vred32 rd rs1 => exact write_mem_unaryAccesses rd rs1 b j
  | vcaddq rd rs1 => exact write_mem_unaryAccesses rd rs1 b j
  | vfreeze rd rs1 => exact write_mem_unaryAccesses rd rs1 b j
  | _ => simp [bufferAccesses, destinationBuf]

/-- A command's sources are written when each of its source buffers is. -/
theorem sourcesWritten_iff (i : Instr) (s : State) :
    s.sourcesWritten i ↔ ∀ b ∈ sourceBufs i, s.bufferWritten b := by
  cases i <;> simp [State.sourcesWritten, sourceBufs]

/-- The accesses of a command read a word without a value exactly when its sources are not all written. -/
theorem exists_unwritten_read_iff (i : Instr) (s : State) :
    (∃ b j, .read b j ∈ bufferAccesses i ∧ s.readBufWord b j = none) ↔ ¬s.sourcesWritten i := by
  simp only [read_mem_bufferAccesses, sourcesWritten_iff, not_forall, not_bufferWritten_iff]
  constructor
  · rintro ⟨b, j, ⟨hj, hb⟩, hnone⟩
    exact ⟨b, hb, j, hj, hnone⟩
  · rintro ⟨b, hb, j, hj, hnone⟩
    exact ⟨b, j, ⟨hj, hb⟩, hnone⟩

/-- A vector completion that does not answer a next state faults on an unwritten word (R177). -/
theorem completeOrFault_fault_iff (F : Int → Int) (ok : Int → Bool) (rd : Buf)
    (args : Option (List Int)) (s : State) :
    completeOrFault F ok rd args s = .fault .unwrittenRead ↔
      ¬∃ t, completeOrFault F ok rd args s = .next t := by
  cases args <;> simp [completeOrFault]

/-- A command faults on an unwritten word exactly when it does not complete. -/
theorem exec_fault_iff (i : Instr) (s : State) :
    exec i s = .fault .unwrittenRead ↔ ¬∃ t, exec i s = .next t := by
  cases i with
  | vmmul rd rs1 rs2 => exact completeOrFault_fault_iff ..
  | vred32 rd rs1 => exact completeOrFault_fault_iff ..
  | vcaddq rd rs1 => exact completeOrFault_fault_iff ..
  | vfreeze rd rs1 => exact completeOrFault_fault_iff ..
  | _ => exact ⟨nofun, fun h => absurd ⟨_, rfl⟩ h⟩

/-- A command that completes leaves every byte outside its destination buffer as it was. -/
theorem readByte_of_exec {i : Instr} {s t : State} (h : exec i s = .next t) {o : Nat}
    (ho : ∀ b, destinationBuf i = some b → ¬inBuffer b o) :
    t.mem.readByte o = s.mem.readByte o := by
  cases i with
  | vmmul rd rs1 rs2 => exact (vmmul_completion h).1.2 o (ho rd rfl)
  | vred32 rd rs1 => exact (unary_completion h).1.2 o (ho rd rfl)
  | vcaddq rd rs1 => exact (unary_completion h).1.2 o (ho rd rfl)
  | vfreeze rd rs1 => exact (unary_completion h).1.2 o (ho rd rfl)
  | _ =>
    cases h
    rfl

/-- Settles O29: the pattern's reads are those of the source buffers, its writes those of the destination. -/
theorem accessPatternDecidesFault : Obligations.AccessPatternDecidesFault := by
  intro i s
  refine ⟨?_, exec_next_iff_sourcesWritten i s, fun t h o ho => ?_⟩
  · rw [exec_fault_iff, exec_next_iff_sourcesWritten, exists_unwritten_read_iff]
  · refine readByte_of_exec h fun b hb hin => ?_
    obtain ⟨k, hk, j, hj, rfl⟩ := exists_word_of_inBuffer hin
    exact ho b k ((write_mem_bufferAccesses i b k).mpr ⟨hk, hb⟩) (by omega)

end Sys2Proof.Machine
end

section
/-! PROOFS. The lifecycle of a command (60_exceptions.md): what offering a word does, idle or busy (R201, R202), the engine's turn and the end of a completion (R203), and which steps change PHASE (R200). -/

namespace Sys2Proof.Machine

/-! ## PHASE (R200) -/

/-- A write changes PHASE by the acceptance of a command alone (R201). -/
theorem writeTarget_engine (s : State) (tg : Target) (w : Word) :
    (s.writeTarget tg w).engine = s.engine ∨
      (tg = .cmd ∧ (∃ i, decode w = .ok i) ∧ (s.writeTarget tg w).engine = .run w) := by
  cases tg with
  | cmd =>
    obtain ⟨i, hd, he⟩ | ⟨_, -, he⟩ := offerCommand_cases s w
    · exact .inr ⟨rfl, ⟨i, hd⟩, by simp [State.writeTarget, he]⟩
    · exact .inl (by simp [State.writeTarget, he])
  | _ => exact .inl rfl

/-- A completion leaves PHASE = IDLE (R203). -/
theorem exec_engine {i : Instr} {s t : State} (h : exec i s = .next t) : t.engine = .idle := by
  obtain ⟨-, F, ok, a, rfl⟩ | ⟨-, F, ok, b, xs, -, rfl⟩ := exec_next h <;> rfl

/-- What PHASE and CUR can be after a step of s, each with the event that makes it so. -/
inductive PhaseEffect (s : State) : Engine → Prop where
  /-- No event touches PHASE. -/
  | kept : PhaseEffect s s.engine
  /-- A legal word is offered while IDLE (R201). -/
  | accepted (w : Word) (i : Instr) (hidle : s.engine = .idle) (hnext : s.writesNext 0x00C#13 w)
      (hd : decode w = .ok i) : PhaseEffect s (.run w)
  /-- The command in flight completes (R203). -/
  | completed (i : Instr) (hc : s.completes i) : PhaseEffect s .idle
  /-- Reset (R230). -/
  | reset (hnext : s.resetNext) : PhaseEffect s .idle

/-- What a step does to PHASE. -/
theorem StepEffect.phaseEffect {s t : State} (h : StepEffect s t) : PhaseEffect s t.engine := by
  cases h with
  | quiet l r => exact .kept
  | dropped kind off l r hbusy hnext hprot => exact .kept
  | write off w l r hnext hfree =>
    obtain he | ⟨htg, ⟨i, hd⟩, he⟩ := writeTarget_engine s (targetOf off.toNat) w
    · simpa only [he] using PhaseEffect.kept
    · have hidle := idle_of_write_cmd hfree htg
      obtain rfl : off = 0x00C#13 := eq_of_targetOf _ htg (by decide)
      simpa only [he] using PhaseEffect.accepted w i hidle hnext hd
  | completion i l t hc hexec =>
    rw [exec_engine hexec]
    exact .completed i hc
  | reset l r hnext => exact .reset hnext

/-- PHASE leaves IDLE by the acceptance of a command. -/
theorem PhaseEffect.leaves_idle {s : State} {e : Engine} (h : PhaseEffect s e) {cur : Word}
    (hidle : s.engine = .idle) (hrun : e = .run cur) :
    s.writesNext 0x00C#13 cur ∧ ∃ i, decode cur = .ok i := by
  cases h with
  | kept => simp [hidle] at hrun
  | accepted w i _ hnext hd =>
    cases hrun
    exact ⟨hnext, i, hd⟩
  | completed i hc => cases hrun
  | reset hnext => cases hrun

/-- PHASE leaves RUN, to IDLE, by a completion or by reset; no acceptance takes one command's place with another's. -/
theorem PhaseEffect.leaves_run {s : State} {e : Engine} (h : PhaseEffect s e) {cur : Word}
    (hrun : s.engine = .run cur) (hne : e ≠ .run cur) :
    e = .idle ∧ ((∃ i, s.completes i) ∨ s.resetNext) := by
  cases h with
  | kept => exact absurd hrun hne
  | accepted w i hidle _ _ => simp [hidle] at hrun
  | completed i hc => exact ⟨rfl, .inl ⟨i, hc⟩⟩
  | reset hnext => exact ⟨rfl, .inr hnext⟩

/-- Settles O55: of all the effects of a step, an acceptance alone leaves IDLE, and a completion and reset leave RUN. -/
theorem phaseChanges : Obligations.PhaseChanges :=
  ⟨busy_eq_true_iff, fun _ _ h =>
    have he := (stepEffect h).phaseEffect
    ⟨fun _ => he.leaves_idle, fun _ => he.leaves_run⟩⟩

/-! ## Offering a word (R201, R202, R66) -/

/-- While IDLE a write to CMD offers its word. -/
theorem writeLeaves_cmd_of_idle {s : State} (w : Word) (hidle : s.engine = .idle) :
    s.writeLeaves 0x00C#13 w (s.offerCommand w) :=
  writeLeaves_of_idle (tg := .cmd) w hidle rfl (by decide)

/-- A legal word is accepted. -/
theorem offerCommand_of_ok (s : State) {w : Word} {i : Instr} (hd : decode w = .ok i) :
    s.offerCommand w = s.accept w := by
  simp only [State.offerCommand, hd]

/-- An illegal word raises Illegal. -/
theorem offerCommand_of_error (s : State) {w : Word} {e : Illegal} (hd : decode w = .error e) :
    s.offerCommand w = s.raiseIllegal := by
  simp only [State.offerCommand, hd]

/-- While RUN a write to a protected offset is dropped (R66). -/
theorem writeLeaves_of_run {s : State} {off : Offset} {cur : Word} (w : Word)
    (hrun : s.engine = .run cur) (h4 : off.toNat % 4 = 0)
    (hprot : isProtected (targetOf off.toNat) = true) : s.writeLeaves off w (s.setErr 2#32) := by
  have hdrop : busAccess ⟨.write w, off, 4⟩ s = .next (s.raiseBusyAccess (.write w)) :=
    busAccess_of_busy ((isPerformed_iff _).mpr ⟨rfl, h4⟩) ((busy_eq_true_iff s).mpr ⟨cur, hrun⟩)
      hprot
  exact (step_plan_access s _).trans hdrop

/-- Settles O42: acceptance and the raising of Illegal are the two ends of an offer, and busy protection keeps a word from being offered while RUN. -/
theorem offeredCommand : Obligations.OfferedCommand := by
  refine fun s w => ⟨?_, ?_, fun cur hrun => writeLeaves_of_run w hrun rfl (by decide)⟩
  · rintro hidle ⟨i, hd⟩
    have hoffer := writeLeaves_cmd_of_idle w hidle
    rwa [offerCommand_of_ok s hd] at hoffer
  · rintro hidle ⟨e, hd⟩
    have hoffer := writeLeaves_cmd_of_idle w hidle
    rwa [offerCommand_of_error s hd] at hoffer

/-! ## The completion step (R203) -/

/-- With PHASE = RUN the engine's turn is the completion step of the command CUR decodes to. -/
theorem engineTurn_of_run {s : State} {cur : Word} {i : Instr} (hrun : s.engine = .run cur)
    (hd : decode cur = .ok i) : engineTurn s = exec i s := by
  simp only [engineTurn, hrun, hd]

/-- With nothing scheduled a step is the engine's turn. -/
theorem step_of_exhausted {s : State} (hs : s.schedule = []) : step s = engineTurn s := by
  simp only [step, nextTurn, hs]

/-- Settles O43: in both cases the step is the engine's turn. -/
theorem stepRunsTheDecodedCommand : Obligations.StepRunsTheDecodedCommand := fun _ _ _ hrun hd =>
  have hturn := engineTurn_of_run hrun hd
  ⟨fun hs => (step_of_exhausted hs).trans hturn, hturn⟩

/-- Settles O44: every completion ends with finish. -/
theorem completionEndsTheCommand : Obligations.CompletionEndsTheCommand := by
  intro i s t h
  have hidle : t.engine = .idle := exec_engine h
  have hbusy : t.busy = false := (busy_eq_false_iff t).mpr hidle
  have hdone : t.done = true := exec_done h
  exact ⟨hidle, hbusy, hdone, by simp [State.status, hbusy, hdone]⟩

/-! ## Placed words -/

/-- The table's reading of a word is the decoder's. -/
theorem decodeTableWord_eq_some_iff (nbits w : Nat) (i : Instr) :
    decodeTableWord nbits w = some i ↔ decode (BitVec.ofNat 32 (w % 2 ^ nbits)) = .ok i := by
  unfold decodeTableWord
  cases decode (BitVec.ofNat 32 (w % 2 ^ nbits)) <;> simp

/-- A placed word is accepted, with the engine's turn put before the schedule. -/
theorem withFetchWord_eq_plan (s : State) {nbits w : Nat} (hw : w < 2 ^ nbits) :
    s.withFetchWord nbits w = (s.accept (BitVec.ofNat 32 w)).plan .engine := by
  rw [State.withFetchWord, Nat.mod_eq_of_lt hw]
  rfl

/-- Settles O45: the engine's turn, put first, finds the placed word accepted. -/
theorem placedWordRunsNext : Obligations.PlacedWordRunsNext := by
  intro s w i hw hd
  rw [decodeTableWord_eq_some_iff, Nat.mod_eq_of_lt hw] at hd
  rw [withFetchWord_eq_plan s hw]
  exact engineTurn_of_run (s := s.accept (BitVec.ofNat 32 w)) rfl hd

end Sys2Proof.Machine
end

section
/-! PROOFS. Reset and hazards (70_reset_and_hazards.md): what reset leaves of a block in any state (R230), an idle block waits (R231), and an accepted command completes, whatever accesses the host still makes (R244). -/

namespace Sys2Proof.Machine

/-! ## Reset and waiting (R230, R231) -/

/-- Reset put before the schedule is the step. -/
theorem step_plan_reset (s : State) : step (s.plan .reset) = .next s.resetBlock := rfl

/-- Settles O49: the reset block is the state after reset (O48) in everything but schedule and replies, whatever the state before. -/
theorem resetAborts : Obligations.ResetAborts := by
  intro s
  obtain ⟨hctrl, hstatus, hdone, herr, hsaLo, hsaHi, hsb, hsr, hengine, hirq, hbuffers, -⟩ :=
    resetValues
  exact ⟨s.resetBlock, step_plan_reset s, hctrl, hstatus, hdone, herr, hsaLo, hsaHi, hsb, hsr,
    hengine, hirq, hbuffers, resetBlock_schedule s, resetBlock_replies s⟩

/-- With PHASE = IDLE the engine's turn does nothing. -/
theorem engineTurn_of_idle {s : State} (hidle : s.engine = .idle) : engineTurn s = .next s := by
  simp only [engineTurn, hidle]

/-- Settles O46: in both cases the step is the engine's turn. -/
theorem idleBlockWaits : Obligations.IdleBlockWaits := fun _ hidle =>
  have hturn := engineTurn_of_idle hidle
  ⟨fun hs => (step_of_exhausted hs).trans hturn, hturn⟩

/-! ## What is left of the schedule -/

/-- An access leaves the turns still to come as they are. -/
theorem busAccess_schedule {a : Access} {s t : State} (h : busAccess a s = .next t) :
    t.schedule = s.schedule := by
  obtain ⟨-, rfl⟩ | ⟨-, -, -, rfl⟩ | ⟨-, -, hhost⟩ := busAccess_next h
  · exact raiseBusError_schedule s
  · exact raiseBusyAccess_schedule s a.kind
  · obtain ⟨v, -, -, rfl⟩ | ⟨w, -, rfl⟩ := hostAccess_next hhost
    · exact answer_schedule s (.data v)
    · exact writeTarget_schedule s _ w

/-- A completion leaves the turns still to come as they are. -/
theorem exec_schedule {i : Instr} {s t : State} (h : exec i s = .next t) :
    t.schedule = s.schedule := by
  obtain ⟨-, F, ok, a, rfl⟩ | ⟨-, F, ok, b, xs, -, rfl⟩ := exec_next h
  · exact completeScalar_schedule s F ok a
  · exact completeVector_schedule s F ok b xs

/-! ## An accepted command completes (R244, R72 item 2) -/

theorem sameProtected.refl (s : State) : sameProtected s s := ⟨rfl, rfl, rfl, rfl, rfl, rfl⟩

theorem sameProtected.trans {s t u : State} (hst : sameProtected s t) (htu : sameProtected t u) :
    sameProtected s u := by
  obtain ⟨hlo, hhi, hsb, hsr, hmem, hengine⟩ := hst
  obtain ⟨hlo', hhi', hsb', hsr', hmem', hengine'⟩ := htu
  exact ⟨hlo'.trans hlo, hhi'.trans hhi, hsb'.trans hsb, hsr'.trans hsr, hmem'.trans hmem,
    hengine'.trans hengine⟩

/-- While RUN an access that is due takes one turn off the schedule and changes nothing of the protected set (R66). -/
theorem step_access_of_run {s : State} {a : Access} {l : List Slot} {cur : Word}
    (hl : s.schedule = .access a :: l) (hrun : s.engine = .run cur) :
    ∃ t, step s = .next t ∧ sameProtected s t ∧ t.schedule = l := by
  have hplan : s = State.plan { s with schedule := l } (.access a) := by rw [State.plan, ← hl]
  obtain ⟨t, hstep, hsame⟩ := operandsHoldWhileBusy { s with schedule := l } cur a hrun
  exact ⟨t, hplan ▸ hstep, hsame, busAccess_schedule hstep⟩

/-- When the engine moves, its turn due or nothing scheduled, the command in flight completes if its sources are written. -/
theorem step_of_engineMoves {s : State} {cur : Word} {i : Instr} (hm : s.engineMoves)
    (hrun : s.engine = .run cur) (hd : decode cur = .ok i) (hsrc : s.sourcesWritten i) :
    ∃ t, step s = .next t ∧ exec i { s with schedule := t.schedule } = .next t := by
  obtain hs | ⟨l, hl⟩ := hm
  · obtain ⟨t, hexec⟩ := (exec_next_iff_sourcesWritten i s).mpr hsrc
    refine ⟨t, ?_, ?_⟩
    · rw [step_of_exhausted hs, engineTurn_of_run hrun hd, hexec]
    · rw [exec_schedule hexec]
      exact hexec
  · obtain ⟨t, hstep, hexec⟩ := step_completes hl hrun hd hsrc
    refine ⟨t, hstep, ?_⟩
    rw [exec_schedule hexec]
    exact hexec

/-- After k steps that keep the protected set of s, the run of s completes command i. -/
def State.completesAfter (s : State) (i : Instr) (k : Nat) : Prop :=
  ∃ u t, run k s = .next u ∧ run (k + 1) s = .next t ∧ sameProtected s u ∧
    exec i { u with schedule := t.schedule } = .next t

/-- When the engine moves the completion comes at once. -/
theorem completesAfter_zero {s : State} {cur : Word} {i : Instr} (hm : s.engineMoves)
    (hrun : s.engine = .run cur) (hd : decode cur = .ok i) (hsrc : s.sourcesWritten i) :
    s.completesAfter i 0 := by
  obtain ⟨t, hstep, hexec⟩ := step_of_engineMoves hm hrun hd hsrc
  exact ⟨s, t, run_zero s, run_succ 0 hstep, .refl s, hexec⟩

/-- A step that keeps the protected set puts the completion off by one. -/
theorem completesAfter_succ {s v : State} {i : Instr} {k : Nat} (hstep : step s = .next v)
    (hsame : sameProtected s v) (hv : v.completesAfter i k) : s.completesAfter i (k + 1) := by
  obtain ⟨u, t, hu, ht, hkept, hexec⟩ := hv
  exact ⟨u, t, (run_succ k hstep).trans hu, (run_succ (k + 1) hstep).trans ht, hsame.trans hkept,
    hexec⟩

/-- By induction on the schedule: the engine's turn, or the end of the schedule, brings the completion, and each access before it keeps what the command needs and leaves a shorter schedule. -/
theorem exists_completesAfter {cur : Word} {i : Instr} (hd : decode cur = .ok i) (l : List Slot)
    {s : State} (hl : s.schedule = l) (hrun : s.engine = .run cur) (hsrc : s.sourcesWritten i)
    (hreset : Slot.reset ∉ l) : ∃ k ≤ l.length, s.completesAfter i k := by
  induction l generalizing s with
  | nil => exact ⟨0, Nat.zero_le _, completesAfter_zero (.inl hl) hrun hd hsrc⟩
  | cons slot l ih =>
    obtain ⟨hslot, hrest⟩ := List.ne_and_not_mem_of_not_mem_cons hreset
    cases slot with
    | access a =>
      obtain ⟨v, hstep, hsame, hvl⟩ := step_access_of_run hl hrun
      have ⟨_, _, _, _, hmem, hengine⟩ := hsame
      obtain ⟨k, hk, hv⟩ :=
        ih hvl (hengine.trans hrun) ((sourcesWritten_congr hmem i).mpr hsrc) hrest
      exact ⟨k + 1, Nat.succ_le_succ hk, completesAfter_succ hstep hsame hv⟩
    | engine => exact ⟨0, Nat.zero_le _, completesAfter_zero (.inr ⟨l, hl⟩) hrun hd hsrc⟩
    | reset => exact absurd rfl hslot

/-- Settles O57: the completion that the induction on the schedule finds ends the command, on what the protected set held. -/
theorem acceptedCommandCompletes : Obligations.AcceptedCommandCompletes := by
  intro s cur i hrun hd hsrc hreset
  obtain ⟨k, hk, u, t, hu, ht, hkept, hexec⟩ := exists_completesAfter hd _ rfl hrun hsrc hreset
  obtain ⟨hlo, hhi, hsb, -, hmem, hengine⟩ := hkept
  exact ⟨k, hk, u, t, hu, ht, hengine.trans hrun, hlo, hhi, hsb, hmem, hexec, exec_engine hexec,
    exec_done hexec⟩

end Sys2Proof.Machine
end
